-- ==== Sys2Proof/Word.lean ====
section
/-!
DEFINITION. The two value types of the datapath: u64 words and u8 bytes (00_scope.md R9, R10).
Their `+` and `*` are the wrapping BitVec operations, as R10 says.
-/

namespace Sys2Proof

/-- A byte of the message or of BUF (u8, R9). -/
abbrev Byte := BitVec 8

/-- A datapath value (u64, R7 WORD, R9). -/
abbrev Word := BitVec 64

/-- A CMD word (30_encoding.md R52). -/
abbrev CmdWord := BitVec 32

end Sys2Proof
end

