-- ==== Sys2Proof/Syntax.lean ====
section
/-!
DEFINITION. The host commands, one constructor per row of spec/opcode_table.json (30_encoding.md R53).
-/

namespace Sys2Proof

/-- A host command. R57: APPEND's LEN is the only operand a command word carries. -/
inductive Instr where
  /-- INIT (R101). -/
  | init
  /-- APPEND with its LEN field, 4 bits (R55, R102); `Instr.wellFormed` says which values are legal. -/
  | append (len : BitVec 4)
  /-- FINALIZE (R103). -/
  | finalize
  deriving DecidableEq, Repr

end Sys2Proof
end

