-- ==== Sys2Proof/WellFormed.lean ====
section
/-!
DEFINITION. Which commands the encoding admits.
-/

namespace Sys2Proof

/-- R55: an APPEND delivers at most MAX_CHUNK = 8 bytes. The other commands have no operand (R57). -/
def Instr.wellFormed : Instr → Bool
  | .init => true
  | .append len => decide (len.toNat ≤ 8)
  | .finalize => true

end Sys2Proof
end

