-- ==== Sys2Proof/Decode.lean ====
section
/-!
DEFINITION. The decoder of CMD words, total on every 32-bit word (30_encoding.md R52 to R59), and the encoder.
-/

namespace Sys2Proof

/-- Why a word is illegal, in the order of R59's tests; one constructor per line of R58. -/
inductive IllegalReason where
  /-- RSV ≠ 0. -/
  | reservedBits
  /-- OP is 0x0 or in 0x4..0xF. -/
  | reservedOp
  /-- OP = 0x1 or 0x3 and LEN ≠ 0. -/
  | lenNotZero
  /-- OP = 0x2 and LEN > 8. -/
  | lenTooLong
  deriving DecidableEq, Repr

/-- What a CMD word decodes to: exactly one command, or illegal (R59). -/
inductive Decoded where
  | instr (i : Instr)
  | illegal (why : IllegalReason)
  deriving DecidableEq, Repr

/-- OP, bits 3:0 (R52). -/
def opField (w : CmdWord) : BitVec 4 := w.extractLsb' 0 4

/-- LEN, bits 7:4 (R52, R55). -/
def lenField (w : CmdWord) : BitVec 4 := w.extractLsb' 4 4

/-- RSV, bits 31:8 (R52). -/
def rsvField (w : CmdWord) : BitVec 24 := w.extractLsb' 8 24

/-- R59's decoder. -/
def decode (w : CmdWord) : Decoded :=
  if rsvField w ≠ 0 then .illegal .reservedBits
  else if opField w = 0x1 then
    if lenField w = 0 then .instr .init else .illegal .lenNotZero
  else if opField w = 0x2 then
    if (lenField w).toNat ≤ 8 then .instr (.append (lenField w)) else .illegal .lenTooLong
  else if opField w = 0x3 then
    if lenField w = 0 then .instr .finalize else .illegal .lenNotZero
  else .illegal .reservedOp

/-- The command word of a command (R54): RSV = 0, LEN, OP from the highest bit down. -/
def encode : Instr → CmdWord
  | .init => 0x00000001
  | .append len => len.setWidth 32 <<< 4 ||| 0x2
  | .finalize => 0x00000003

/-- The command a table row's bits stand for: a CMD word is one 32-bit write, so its bits are the table's bits; the
bits above `nbits` are 0, and a row longer than a CMD word is no command (R52: every command is 32 bits). -/
def decodeTableWord (nbits w : Nat) : Option Instr :=
  if nbits ≤ 32 then
    match decode (BitVec.ofNat 32 (w % 2 ^ nbits)) with
    | .instr i => some i
    | .illegal _ => none
  else none

end Sys2Proof
end

