-- ==== Sys2Proof/Machine/Constants.lean ====
section
/-!
DEFINITION. The mixing constants (40_primitives.md R63, R65).
-/

namespace Sys2Proof.Machine

/-- K2 (R7, R63: given by the document's §8). -/
def constK2 : Word := 0x9ae16a3b2f90404f

/-- SEED = 81 (R7, R63). -/
def constSeed : Word := 81

/-- K0's default (R7, R63). PRESUMED: the spec supplies it from general knowledge (log 2). -/
def defaultK0 : Word := 0xc3a5c85c97cb3127

/-- K1's default (R7, R63). PRESUMED: the spec supplies it from general knowledge (log 2). -/
def defaultK1 : Word := 0xb492b66fbe98f273

end Sys2Proof.Machine
end

