-- ==== Sys2Proof/Machine/Primitives.lean ====
section
/-!
DEFINITION. The pure functions every datapath rule is built from (40_primitives.md R66 to R73). None of them raises
and none writes a flag.
-/

namespace Sys2Proof.Machine

/-- R67: the 64-bit right rotation, with its guard for k = 0. -/
def rotr (x : Word) (k : Nat) : Word :=
  if k = 0 then x else (x >>> k) ||| (x <<< (64 - k))

/-- R68. -/
def shiftMix (v : Word) : Word := v ^^^ (v >>> 47)

/-- `zext_64` of a byte (R9). -/
def zext8 (b : Byte) : Word := b.setWidth 64

/-- A length entering u64 arithmetic (R12). -/
def lenWord (len : Nat) : Word := BitVec.ofNat 64 len

/-- `S[i]` (R12). DESIGN CHOICE: past the end of S it is 0; every access of the block to a sequence lies within it
(R39, R69; log 11). -/
def byteAt (S : List Byte) (i : Nat) : Byte := S.getD i 0

/-- The little-endian value of the n bytes S[off], .., S[off+n-1] (R11 MemRead, R69, R70): byte off + i counts
`<< 8 i`. -/
def fetchLE (S : List Byte) (off : Nat) : Nat → Word
  | 0 => 0
  | n + 1 => fetchLE S off n + (zext8 (byteAt S (off + n)) <<< (8 * n))

/-- R69. -/
def fetch64 (S : List Byte) (off : Nat) : Word := fetchLE S off 8

/-- R70: zero-extended. -/
def fetch32 (S : List Byte) (off : Nat) : Word := fetchLE S off 4

/-- R71. -/
def fetch8 (S : List Byte) (i : Nat) : Word := zext8 (byteAt S i)

/-- R72. -/
def combine16 (u v mul : Word) : Word :=
  let a := (u ^^^ v) * mul
  let a := a ^^^ (a >>> 47)
  let b := (v ^^^ a) * mul
  let b := b ^^^ (b >>> 47)
  b * mul

/-- R73: statements in order, each reading the latest a and b. -/
def weakHash (p q r s a b : Word) : Word × Word :=
  let a := a + p
  let b := rotr (b + a + s) 21
  let c := a
  let a := a + q
  let a := a + r
  let b := b + rotr a 44
  (a + s, b + c)

end Sys2Proof.Machine
end

