-- ==== Sys2Proof/Config.lean ====
section
/-!
DEFINITION. The block's configuration (00_scope.md R7, R31): what an implementation fixes and no command writes.
K0 and K1 are parameters (D5, U14) and so are the three short-input band functions (42_short_input.md preamble, U15).
The machine is written for every configuration (Machine/Configured.lean); `exec`, `step` and `core` are it with the spec's
defaults, `Sys2Proof.Machine.activeConfig`, in Machine/ShortInput.lean.
-/

namespace Sys2Proof
open Sys2Proof.Machine

/-- R8: a model that takes K0 and K1 as parameters requires both to be odd. -/
abbrev OddConstant (w : Word) : Prop := w.toNat % 2 = 1

/-- A band function, of the byte sequence S and the length (R80). -/
abbrev BandFunction := List Byte → Nat → Word

/-- R81, R83: what the document fixes of the three band functions, as far as a function's values show it (log 3): which
bytes and words of S each may depend on, and the value for the empty message. -/
structure BandStructure (short middle long : BandFunction) : Prop where
  empty : ∀ S, short S 0 = constK2
  bytes1to3 : ∀ S T : List Byte, ∀ len, 1 ≤ len → len ≤ 3 → byteAt S 0 = byteAt T 0 →
    byteAt S (len / 2) = byteAt T (len / 2) → byteAt S (len - 1) = byteAt T (len - 1) → short S len = short T len
  words4to7 : ∀ S T : List Byte, ∀ len, 4 ≤ len → len ≤ 7 → fetch32 S 0 = fetch32 T 0 →
    fetch32 S (len - 4) = fetch32 T (len - 4) → short S len = short T len
  words8to16 : ∀ S T : List Byte, ∀ len, 8 ≤ len → len ≤ 16 → fetch64 S 0 = fetch64 T 0 →
    fetch64 S (len - 8) = fetch64 T (len - 8) → short S len = short T len
  words17to32 : ∀ S T : List Byte, ∀ len, 17 ≤ len → len ≤ 32 →
    (∀ off ∈ [0, 8, len - 8, len - 16], fetch64 S off = fetch64 T off) → middle S len = middle T len
  words33to64 : ∀ S T : List Byte, ∀ len, 33 ≤ len → len ≤ 64 →
    (∀ off ∈ [0, 8, len - 8, len - 16, 16, 24, len - 32, len - 24], fetch64 S off = fetch64 T off) →
    long S len = long T len

/-- The configuration fields, with what the spec requires of them: R8 of K0 and K1, R81 of the band functions (U15). -/
structure Config where
  k0 : Word
  k1 : Word
  len0to16 : BandFunction
  len17to32 : BandFunction
  len33to64 : BandFunction
  k0Odd : OddConstant k0
  k1Odd : OddConstant k1
  bands : BandStructure len0to16 len17to32 len33to64

end Sys2Proof
end

