-- ==== Sys2Proof/Machine/State.lean ====
section
/-!
DEFINITION. The state of one instance (10_state.md), the reasons a step stops, and the state after reset.
-/

namespace Sys2Proof.Machine

/-- The rolling state, the datapath's register file: seven u64 registers (R14, C1). -/
structure Rolling where
  x : Word
  y : Word
  z : Word
  v0 : Word
  v1 : Word
  w0 : Word
  w1 : Word
  deriving DecidableEq, Repr

/-- Every rolling-state register at 0 (R101, R130). -/
def Rolling.zero : Rolling := ⟨0, 0, 0, 0, 0, 0, 0⟩

/-- BUF, the pending buffer (R17). -/
abbrev Buffer := Vector Byte 64

/-- The error causes a command can raise (60_exceptions.md R111); NONE is the absence of one. -/
inductive Cause where
  | appendAfterFinalize
  | finalizeAfterFinalize
  | illegalCmd
  | internal
  deriving DecidableEq, Repr

/-- One entry of the fault log: the cause and its information, the CMD word (R114, R117). -/
structure FaultEntry where
  cause : Cause
  info : CmdWord
  deriving DecidableEq, Repr

/-- A host access to the register window: its width in bits, its byte offset from the window base and, for a write,
the value. Which of these the block admits is R41's list. -/
inductive Access where
  | read (width off : Nat)
  | write (width off : Nat) (value : BitVec width)
  deriving DecidableEq, Repr

/-- What the outside does to the instance: an agent's access (R47, R48), or reset (R129). -/
inductive Input where
  | access (agent : Nat) (a : Access)
  | reset
  deriving DecidableEq, Repr

/-- The value a host read returned, at the read's width (R41). -/
inductive Reply where
  | word32 (v : BitVec 32)
  | word64 (v : BitVec 64)
  deriving DecidableEq, Repr

/-- Why the machine stops with a fault. The block's own errors are no stops (R116): they set ERR and CAUSE. -/
inductive Fault where
  /-- Raised by APPEND, and by FINALIZE on the short path, when the 7-bit CURSOR field holds 65..127: values R18 says
  are never held, for which no rule gives an effect. Safe: the machine stops (log 6). -/
  | cursorOutOfRange
  deriving DecidableEq, Repr

/-- Why the machine refuses an input. -/
inductive Refusal where
  /-- Raised by an arm of `exec` that has no meaning yet; no arm of this model does. Safe. -/
  | notModelled (mnemonic : String)
  /-- Raised by a host access outside R41's list: its effect is the open parameter HOST_BAD_ACCESS, and the spec has a
  model refuse it (D21, U7). Safe (log 4). -/
  | hostBadAccess
  /-- Raised by an access of a second agent to one instance (R48, U8). Safe (log 5). -/
  | secondAgent
  /-- Raised in the system of several instances by an address in no instance's window (R45). Safe (log 12). -/
  | noWindow
  deriving DecidableEq, Repr

/-- The state of one instance. -/
structure State where
  /-- X, Y, Z, V0, V1, W0, W1 (R14). -/
  roll : Rolling
  /-- BUF[0..63] (R17). -/
  buf : Buffer
  /-- CURSOR, a 7-bit field holding 0..64 (R18). -/
  cursor : BitVec 7
  /-- HASMIXED (R20). -/
  hasMixed : Bool
  /-- DONE (R21). -/
  done : Bool
  /-- ERR (R23). -/
  err : Bool
  /-- CAUSE, a 4-bit field (R23, R111). -/
  cause : BitVec 4
  /-- DATA (R26). -/
  data : Word
  /-- RESULT (R27). -/
  result : Word
  /-- The model's log of every raise, oldest first; not hardware state (R117, D32; log 9). -/
  faultLog : List FaultEntry
  /-- The model's list of inputs the outside has still to issue, next first; not hardware state (R47; log 1). -/
  pending : List Input
  /-- The model's list of values returned to the host's reads, oldest first; not hardware state (log 13). -/
  replies : List Reply
  /-- The agent this instance has been used by, if any; the model's own, for R48's premise (log 5). -/
  owner : Option Nat
  deriving DecidableEq, Repr

/-- The state after reset (R130). The last four fields are the model's own: DESIGN CHOICE, empty (log 1, 5, 9, 13). -/
def State.reset : State where
  roll := Rolling.zero
  buf := Vector.replicate 64 0
  cursor := 0
  hasMixed := false
  done := false
  err := false
  cause := 0
  data := 0
  result := 0
  faultLog := []
  pending := []
  replies := []
  owner := none

end Sys2Proof.Machine
end

