-- ==== Sys2Proof/Machine/BlockMixer.lean ====
section
/-!
DEFINITION. The block state updater as pure functions on the rolling state (41_block_mixer.md R74 to R78).
-/

namespace Sys2Proof.Machine

/-- R76, R92: word b_k of a 64-byte block. -/
def blockWord (B : List Byte) (k : Nat) : Word := fetch64 B (8 * k)

/-- R74: the rolling state from SEED and the first message word. -/
def initRolling (cfg : Config) (first : Word) : Rolling :=
  let x := constSeed
  let y := constSeed * cfg.k1 + 113
  let z := shiftMix (y * constK2 + 113) * constK2
  { x := x * constK2 + first, y := y, z := z, v0 := 0, v1 := 0, w0 := 0, w1 := 0 }

/-- The round the block mix (R77) and the final round (R95) share. They differ in the multiplier, in the word xor-ed
into x and in the word added to y; the swap of x and z ends both. -/
def mixRound (mul xorX addY : Word) (r : Rolling) (B : List Byte) : Rolling :=
  let x1 := rotr (r.x + r.y + r.v0 + blockWord B 1) 37 * mul
  let y1 := rotr (r.y + r.v1 + blockWord B 6) 42 * mul
  let x1 := x1 ^^^ xorX
  let y1 := y1 + addY + blockWord B 5
  let z1 := rotr (r.z + r.w0) 33 * mul
  let nv := weakHash (blockWord B 0) (blockWord B 1) (blockWord B 2) (blockWord B 3) (r.v1 * mul) (x1 + r.w0)
  let nw := weakHash (blockWord B 4) (blockWord B 5) (blockWord B 6) (blockWord B 7) (z1 + r.w1)
    (y1 + blockWord B 2)
  { x := z1, y := y1, z := x1, v0 := nv.1, v1 := nv.2, w0 := nw.1, w1 := nw.2 }

/-- R77: one block mix. -/
def blockMix (cfg : Config) (r : Rolling) (B : List Byte) : Rolling :=
  mixRound cfg.k1 r.w1 r.v0 r B

end Sys2Proof.Machine
end

