-- ==== Sys2Proof/Machine/Finalizer.lean ====
section
/-!
DEFINITION. The finalizer as a pure function of the rolling state, the last 64 bytes and the trailing length
(43_finalizer.md R91 to R97). It computes on copies (R97).
-/

namespace Sys2Proof.Machine

/-- R91: BUF rotated left by the trailing length r. -/
def rotateBuffer (buf : Buffer) (r : Nat) : List Byte :=
  (List.range 64).map fun i => byteAt buf.toList ((i + r) % 64)

/-- R93: the multiplier, from Z before the final round. -/
def finalMul (cfg : Config) (z : Word) : Word := cfg.k1 + ((z &&& 0xff) <<< 1)

/-- R94: the trailing length folded into w0 and v0, in order. -/
def foldLength (r : Rolling) (len : Nat) : Rolling :=
  let w0 := r.w0 + (lenWord len - 1)
  let v0 := r.v0 + w0
  let w0 := w0 + v0
  { r with v0 := v0, w0 := w0 }

/-- R95: the final round, with `w1 * 9` and `v0 * 9`. -/
def finalRound (mul : Word) (r : Rolling) (L : List Byte) : Rolling :=
  mixRound mul (r.w1 * 9) (r.v0 * 9) r L

/-- R96: the combine. -/
def finalCombine (cfg : Config) (mul : Word) (r : Rolling) : Word :=
  combine16 (combine16 r.v0 r.w0 mul + shiftMix r.y * cfg.k0 + r.z) (combine16 r.v1 r.w1 mul + r.x) mul

/-- R93 to R96: the fingerprint of a message longer than 64 bytes, from the rolling state after its last mix, its last
64 bytes L and the trailing length. -/
def finalHash (cfg : Config) (r : Rolling) (L : List Byte) (len : Nat) : Word :=
  let mul := finalMul cfg r.z
  finalCombine cfg mul (finalRound mul (foldLength r len) L)

end Sys2Proof.Machine
end

