-- ==== Sys2Proof/Machine/Flags.lean ====
section
/-!
DEFINITION. The flags' views: the cause codes, the STATUS word and the mode (10_state.md R22, R28; 60_exceptions.md R111).
The block has no arithmetic condition codes (R24).
-/

namespace Sys2Proof.Machine

/-- R111: the code a cause writes to CAUSE; 0 is NONE. -/
def causeCode : Cause → BitVec 4
  | .appendAfterFinalize => 1
  | .finalizeAfterFinalize => 2
  | .illegalCmd => 3
  | .internal => 4

/-- A flag as one bit of a 32-bit word. -/
def flagWord (b : Bool) : BitVec 32 := if b then 1 else 0

/-- R28: STATUS, assembled from the state on every read. -/
def statusWord (s : State) : BitVec 32 :=
  flagWord s.done ||| (flagWord s.hasMixed <<< 1) ||| (flagWord s.err <<< 2) ||| (s.cause.setWidth 32 <<< 4)
    ||| (s.cursor.setWidth 32 <<< 8)

/-- R22: the document's three-state mode. -/
inductive Mode where
  | buffering
  | mixing
  | finalized
  deriving DecidableEq, Repr

/-- R22: the mode is the pair (DONE, HASMIXED). -/
def modeOf (s : State) : Mode :=
  if s.done then .finalized else if s.hasMixed then .mixing else .buffering

end Sys2Proof.Machine
end

