-- ==== Sys2Proof/Machine/Ops.lean ====
section
/-!
DEFINITION. The named operations over the state: buffer accesses, the raising of an error, the fresh state, and the two
datapath steps APPEND performs.
-/

namespace Sys2Proof.Machine

/-- R11 MemRead: the little-endian value of n bytes of BUF, n in 1, 4, 8, off + n ≤ 64. -/
def memRead (buf : Buffer) (off n : Nat) : Word := fetchLE buf.toList off n

/-- R11 MemWrite: one byte into BUF. Past the end it is dropped; no rule writes there (log 11). -/
def memWrite (buf : Buffer) (off : Nat) (b : Byte) : Buffer := buf.setIfInBounds off b

/-- The copy steps of R99: the bytes of C to BUF[off], BUF[off+1], .. one at a time. -/
def storeBytes (buf : Buffer) (off : Nat) : List Byte → Buffer
  | [] => buf
  | b :: bs => storeBytes (memWrite buf off b) (off + 1) bs

/-- R114, R117: `raise Cause(info)`, taking an error. The first error's code is kept, ERR is set, nothing else of the
block changes; the model's fault log records the cause and the CMD word. There is no trap entry (R120) and no return
from one (R121). -/
def raiseError (c : Cause) (info : CmdWord) (s : State) : State :=
  { s with
    cause := if s.err then s.cause else causeCode c
    err := true
    faultLog := s.faultLog ++ [⟨c, info⟩] }

/-- R101: the fresh state of INIT, every state register but DATA at 0. The model's own fields are kept (R117: no command
clears the fault log). -/
def freshState (s : State) : State :=
  { s with
    roll := Rolling.zero
    buf := Vector.replicate 64 0
    cursor := 0
    hasMixed := false
    done := false
    err := false
    cause := 0
    result := 0 }

/-- R129: reset as an input, INIT's effect and DATA at 0 (log 10). -/
def resetState (s : State) : State := { freshState s with data := 0 }

/-- R74, R75 in R99's step: InitState from BUF's first word, the first time the buffer has filled. -/
def initIfFirst (cfg : Config) (s : State) : State :=
  if s.hasMixed then s
  else { s with roll := initRolling cfg (memRead s.buf 0 8), hasMixed := true }

/-- R77, R78 in R99's step: one block mix of BUF; only the rolling state changes. -/
def mixBuffer (cfg : Config) (s : State) : State :=
  { s with roll := blockMix cfg s.roll s.buf.toList }

end Sys2Proof.Machine
end

