-- ==== Sys2Proof/Machine/ShortInput.lean ====
section
/-!
DEFINITION. The short-input formulas (42_short_input.md R80 to R89) and the configuration the machine runs with.
PRESUMED: all but the structure of the bands is the spec's general-knowledge supply (I3, D6; log 3).
-/

namespace Sys2Proof.Machine

/-- R89: the length-dependent multiplier of the bands from 4 bytes up. -/
def bandMul (len : Nat) : Word := constK2 + lenWord len * 2

/-- R84, 1 ≤ len ≤ 3: first, middle and last byte. -/
def len1to3 (k0 : Word) (S : List Byte) (len : Nat) : Word :=
  let a := fetch8 S 0
  let b := fetch8 S (len >>> 1)
  let c := fetch8 S (len - 1)
  let y := a + (b <<< 8)
  let z := lenWord len + (c <<< 2)
  shiftMix ((y * constK2) ^^^ (z * k0)) * constK2

/-- R85, 4 ≤ len ≤ 7. -/
def len4to7 (S : List Byte) (len : Nat) : Word :=
  let mul := bandMul len
  let a := fetch32 S 0
  combine16 (lenWord len + (a <<< 3)) (fetch32 S (len - 4)) mul

/-- R86, 8 ≤ len ≤ 16. -/
def len8to16 (S : List Byte) (len : Nat) : Word :=
  let mul := bandMul len
  let a := fetch64 S 0 + constK2
  let b := fetch64 S (len - 8)
  let c := rotr b 37 * mul + a
  let d := (rotr a 25 + b) * mul
  combine16 c d mul

/-- R82, R83: the 0-16 byte band. -/
def len0to16 (k0 : Word) (S : List Byte) (len : Nat) : Word :=
  if 8 ≤ len then len8to16 S len
  else if 4 ≤ len then len4to7 S len
  else if 0 < len then len1to3 k0 S len
  else constK2

/-- R87, 17 ≤ len ≤ 32. -/
def len17to32 (k1 : Word) (S : List Byte) (len : Nat) : Word :=
  let mul := bandMul len
  let a := fetch64 S 0 * k1
  let b := fetch64 S 8
  let c := fetch64 S (len - 8) * mul
  let d := fetch64 S (len - 16) * constK2
  combine16 (rotr (a + b) 43 + rotr c 30 + d) (a + rotr (b + constK2) 18 + c) mul

/-- R88, 33 ≤ len ≤ 64: the outer 32 bytes, then the inner 32. -/
def len33to64 (S : List Byte) (len : Nat) : Word :=
  let mul := bandMul len
  let a := fetch64 S 0 * constK2
  let b := fetch64 S 8
  let c := fetch64 S (len - 8) * mul
  let d := fetch64 S (len - 16) * constK2
  let y := rotr (a + b) 43 + rotr c 30 + d
  let z := combine16 y (a + rotr (b + constK2) 18 + c) mul
  let e := fetch64 S 16 * mul
  let f := fetch64 S 24
  let g := (y + fetch64 S (len - 32)) * mul
  let h := (z + fetch64 S (len - 24)) * mul
  combine16 (rotr (e + f) 43 + rotr g 30 + h) (e + rotr (f + a) 18 + g) mul

/-- R80: the band selection, over the configured band functions. -/
def shortHash (cfg : Config) (S : List Byte) (len : Nat) : Word :=
  if len ≤ 16 then cfg.len0to16 S len
  else if len ≤ 32 then cfg.len17to32 S len
  else cfg.len33to64 S len

/-- R81: the default band functions have the structure the document fixes, whatever K0 and K1 are. -/
theorem defaultBands (k0 k1 : Word) : BandStructure (len0to16 k0) (len17to32 k1) len33to64 where
  empty S := by simp [len0to16]
  bytes1to3 S T len h1 h3 ha hb hc := by
    have hb : byteAt S (len >>> 1) = byteAt T (len >>> 1) := by rwa [Nat.shiftRight_eq_div_pow]
    unfold len0to16
    rw [if_neg (by omega), if_neg (by omega), if_pos (by omega), if_neg (by omega), if_neg (by omega), if_pos (by omega)]
    simp only [len1to3, fetch8, ha, hb, hc]
  words4to7 S T len h4 h7 ha hb := by
    unfold len0to16
    rw [if_neg (by omega), if_pos (by omega), if_neg (by omega), if_pos (by omega)]
    simp only [len4to7, ha, hb]
  words8to16 S T len h8 _ ha hb := by
    unfold len0to16
    rw [if_pos h8, if_pos h8]
    simp only [len8to16, ha, hb]
  words17to32 S T len _ _ h := by
    simp only [len17to32, h 0 (by simp), h 8 (by simp), h (len - 8) (by simp), h (len - 16) (by simp)]
  words33to64 S T len _ _ h := by
    simp only [len33to64, h 0 (by simp), h 8 (by simp), h (len - 8) (by simp), h (len - 16) (by simp),
      h 16 (by simp), h 24 (by simp), h (len - 32) (by simp), h (len - 24) (by simp)]

/-- The configuration with the spec's default band functions, for any odd K0 and K1. -/
def standardConfig (k0 k1 : Word) (h0 : OddConstant k0) (h1 : OddConstant k1) : Config where
  k0 := k0
  k1 := k1
  len0to16 := len0to16 k0
  len17to32 := len17to32 k1
  len33to64 := len33to64
  k0Odd := h0
  k1Odd := h1
  bands := defaultBands k0 k1

/-- R8: the default K0 is odd. -/
theorem defaultK0_odd : OddConstant defaultK0 := by decide

/-- R8: the default K1 is odd. -/
theorem defaultK1_odd : OddConstant defaultK1 := by decide

/-- The configuration `exec`, `step` and `core` run with: the spec's defaults (R7, R63, D5, D6; log 2, log 3). -/
def activeConfig : Config := standardConfig defaultK0 defaultK1 defaultK0_odd defaultK1_odd

end Sys2Proof.Machine
end

