-- ==== Sys2Proof/Machine/Lifecycle.lean ====
section
/-!
DEFINITION. INIT and FINALIZE (44_streaming.md R101, R103) and the finalization arbiter (R104).
-/

namespace Sys2Proof.Machine

/-- R101: INIT, legal in every mode. -/
def execInit (s : State) : Host.Outcome State Fault Refusal := .next (freshState s)

/-- R90: the finalizer's precondition on the trailing length. -/
def trailingLegal (r : Nat) : Bool := decide (1 ≤ r) && decide (r ≤ 64)

/-- R104: the arbiter's value, where its path is defined. -/
def arbiter (cfg : Config) (s : State) : Word :=
  if s.hasMixed then
    finalHash cfg s.roll (rotateBuffer s.buf s.cursor.toNat) s.cursor.toNat
  else shortHash cfg s.buf.toList s.cursor.toNat

/-- R103's successful end: RESULT and DONE, nothing else (R97). -/
def deliverResult (v : Word) (s : State) : State := { s with result := v, done := true }

/-- R103: FINALIZE, for every configuration. The finalizer reached with an illegal trailing length raises INTERNAL and gives no fingerprint
(R90, R113, D24; log 7). On the short path CURSOR above 64 is never held (R18; log 6). -/
def finalizeFor (cfg : Config) (s : State) : Host.Outcome State Fault Refusal :=
  if s.done then .next (raiseError .finalizeAfterFinalize (encode .finalize) s)
  else if s.hasMixed && !trailingLegal s.cursor.toNat then .next (raiseError .internal (encode .finalize) s)
  else if 64 < s.cursor.toNat then .fault .cursorOutOfRange
  else .next (deliverResult (arbiter cfg s) s)

/-- R103 with the default configuration. -/
def execFinalize (s : State) : Host.Outcome State Fault Refusal := finalizeFor activeConfig s

end Sys2Proof.Machine
end

