-- ==== Sys2Proof/Machine/Operands.lean ====
section
/-!
DEFINITION. The one operand form: the chunk an APPEND takes from DATA (30_encoding.md R56, 20_memory.md R38).
-/

namespace Sys2Proof.Machine

/-- R56: C[k] = DATA[8k+7:8k] for k < n; the other bits of DATA are ignored. -/
def dataChunk (n : Nat) (data : Word) : List Byte :=
  (List.range n).map fun k => data.extractLsb' (8 * k) 8

end Sys2Proof.Machine
end

