-- ==== Sys2Proof/Machine/Streaming.lean ====
section
/-!
DEFINITION. The append step (44_streaming.md R99, R100) and APPEND (R102).
-/

namespace Sys2Proof.Machine

/-- R99's last two lines: the remainder to the front of BUF, and CURSOR its length. -/
def copyRest (C : List Byte) (s : State) : State :=
  { s with buf := storeBytes s.buf 0 C, cursor := BitVec.ofNat 7 C.length }

/-- R99's loop and last copy, on what is left of the chunk: while more than 64 bytes are left, copy 64 into BUF and mix.
The first argument bounds the iterations; the length of C is always enough. -/
def appendTail (cfg : Config) : Nat → List Byte → State → State
  | 0, C, s => copyRest C s
  | k + 1, C, s =>
    if 64 < C.length then
      appendTail cfg k (C.drop 64) (mixBuffer cfg { s with buf := storeBytes s.buf 0 (C.take 64) })
    else copyRest C s

/-- R99: `Append(C)`, for a chunk of any length, CURSOR in 0..64. -/
def appendChunk (cfg : Config) (C : List Byte) (s : State) : State :=
  let c := s.cursor.toNat
  if C.length ≤ 64 - c then
    { s with buf := storeBytes s.buf c C, cursor := BitVec.ofNat 7 (c + C.length) }
  else
    let filled := { s with buf := storeBytes s.buf c (C.take (64 - c)) }
    appendTail cfg C.length (C.drop (64 - c)) (mixBuffer cfg (initIfFirst cfg filled))

/-- R102: APPEND, for every configuration. A LEN above 8 is no legal command (R58) and raises as its word does at decode (log 8); the decoder
never gives one. CURSOR above 64 is never held (R18; log 6). -/
def appendFor (cfg : Config) (len : BitVec 4) (s : State) : Host.Outcome State Fault Refusal :=
  if 8 < len.toNat then .next (raiseError .illegalCmd (encode (.append len)) s)
  else if s.done then .next (raiseError .appendAfterFinalize (encode (.append len)) s)
  else if 64 < s.cursor.toNat then .fault .cursorOutOfRange
  else .next (appendChunk cfg (dataChunk len.toNat s.data) s)

/-- R102 with the default configuration. -/
def execAppend (len : BitVec 4) (s : State) : Host.Outcome State Fault Refusal := appendFor activeConfig len s

end Sys2Proof.Machine
end

