-- ==== Sys2Proof/Machine/Window.lean ====
section
/-!
DEFINITION. The host register window: which accesses the block admits and what each does (10_state.md R25 to R28,
20_memory.md R41, R44, R47, R48).
-/

namespace Sys2Proof.Machine

/-- The accesses R41 admits, by what they do. -/
inductive Request where
  | command (w : CmdWord)
  | readCmd
  | writeData (v : Word)
  | readData
  | readResult
  | writeResult
  | readStatus
  | writeStatus
  deriving DecidableEq, Repr

/-- R41's list; none for every other access. The value of a write has the access's own width. -/
def windowRequest : Access → Option Request
  | .read width off =>
    if off = 0x00 ∧ width = 32 then some .readCmd
    else if off = 0x08 ∧ width = 64 then some .readData
    else if off = 0x10 ∧ width = 64 then some .readResult
    else if off = 0x18 ∧ width = 32 then some .readStatus
    else none
  | .write width off value =>
    if off = 0x00 ∧ width = 32 then some (.command (value.setWidth 32))
    else if off = 0x08 ∧ width = 64 then some (.writeData (value.setWidth 64))
    else if off = 0x10 ∧ width = 64 then some .writeResult
    else if off = 0x18 ∧ width = 32 then some .writeStatus
    else none

/-- The meaning of the decoded commands. The window is the same for every configuration, so it takes it as an argument:
`exec`, or `execFor` of another configuration (R7, D5). -/
abbrev Meaning := Instr → State → Host.Outcome State Fault Refusal

/-- A write to CMD performs the command (R44, R52): decode first (R118), then the command, or ILLEGAL_CMD with the word
as its information (R58). -/
def command (run : Meaning) (w : CmdWord) (s : State) : Host.Outcome State Fault Refusal :=
  match decode w with
  | .instr i => run i s
  | .illegal _ => .next (raiseError .illegalCmd w s)

/-- The model's record of what a read returned (log 13). -/
def reply (r : Reply) (s : State) : State := { s with replies := s.replies ++ [r] }

/-- R41, R44, U13: what an admitted access does. -/
def perform (run : Meaning) (q : Request) (s : State) : Host.Outcome State Fault Refusal :=
  match q with
  | .command w => command run w s
  | .readCmd => .next (reply (.word32 0) s)
  | .writeData v => .next { s with data := v }
  | .readData => .next (reply (.word64 s.data) s)
  | .readResult => .next (reply (.word64 s.result) s)
  | .writeResult => .next s
  | .readStatus => .next (reply (.word32 (statusWord s)) s)
  | .writeStatus => .next s

/-- R48: whether an agent may access the instance; the first agent to do so becomes its owner (log 5). -/
def ownedBy (agent : Nat) (s : State) : Bool :=
  match s.owner with
  | none => true
  | some o => o == agent

/-- R41, R48: one access of one agent. -/
def performAccess (run : Meaning) (agent : Nat) (a : Access) (s : State) : Host.Outcome State Fault Refusal :=
  if ownedBy agent s then
    match windowRequest a with
    | some q => perform run q { s with owner := some agent }
    | none => .refused .hostBadAccess
  else .refused .secondAgent

/-- One input from outside (R47, R129). -/
def performInput (run : Meaning) (inp : Input) (s : State) : Host.Outcome State Fault Refusal :=
  match inp with
  | .access agent a => performAccess run agent a s
  | .reset => .next (resetState s)

/-- The access that issues a command word, by the instance's owner, or by agent 0 where there is none. -/
def commandInput (w : CmdWord) (s : State) : Input :=
  .access (s.owner.getD 0) (.write 32 0x00 w)

/-- R47: the block takes the next pending input; with none pending nothing happens (log 1). -/
def stepPending (run : Meaning) (s : State) : Host.Outcome State Fault Refusal :=
  match s.pending with
  | [] => .next s
  | inp :: rest => performInput run inp { s with pending := rest }

/-- A state whose next input is the write of a command word to CMD. -/
def withCommand (w : CmdWord) (s : State) : State := { s with pending := commandInput w s :: s.pending }

end Sys2Proof.Machine
end

