-- ==== Sys2Proof/Machine/Step.lean ====
section
/-!
DEFINITION. One step of the machine: one input of the outside, performed whole (20_memory.md R43, R47; D1).
The block has no program counter and fetches nothing (10_state.md R29, 20_memory.md R50): its next instruction is the
next word the host writes to CMD.
-/

namespace Sys2Proof.Machine

/-- R43, R47: one step. -/
def step (s : State) : Host.Outcome State Fault Refusal := stepPending exec s

/-- `s` with the instruction's word as the host's next CMD write; the bits above `nbits` are 0 (log 1). -/
def State.withFetchWord (s : State) (nbits w : Nat) : State :=
  withCommand (BitVec.ofNat 32 (w % 2 ^ nbits)) s

end Sys2Proof.Machine
end

