-- ==== Sys2Proof/Machine/Configured.lean ====
section
/-!
DEFINITION. The machine for every configuration: K0, K1 and the band functions as arguments (00_scope.md R7, R31, D5, U14,
U15). `exec`, `step` and `Sys2Proof.core` are these with the spec's defaults, `activeConfig` (log 2, log 3).
-/

namespace Sys2Proof.Machine

/-- The meaning of every command under a configuration (R101, R102, R103). INIT reads none of it. -/
def execFor (cfg : Config) : Meaning
  | .init, s => execInit s
  | .append len, s => appendFor cfg len s
  | .finalize, s => finalizeFor cfg s

/-- R43, R47: one step under a configuration. -/
def stepFor (cfg : Config) (s : State) : Host.Outcome State Fault Refusal := stepPending (execFor cfg) s

/-- The machine under a configuration. Reset is the same under each: no reset value depends on one (R130). -/
def coreFor (cfg : Config) : Host.Core where
  State := State
  Fault := Fault
  Refusal := Refusal
  step := stepFor cfg
  reset := State.reset

end Sys2Proof.Machine
end

