-- ==== Sys2Proof/Machine/HostProgram.lean ====
section
/-!
DEFINITION. The host's notation and its expansion to accesses (30_encoding.md R60, R61).
-/

namespace Sys2Proof.Machine

/-- One line of a host program (R60). -/
inductive HostOp where
  | wdata (v : Word)
  | init
  | append (n : BitVec 4)
  | finalize
  | rdstat
  | rdres
  | cmd (w : CmdWord)
  deriving DecidableEq, Repr

/-- R60: the host access a line stands for. -/
def hostAccess : HostOp → Access
  | .wdata v => .write 64 0x08 v
  | .init => .write 32 0x00 (encode .init)
  | .append n => .write 32 0x00 (encode (.append n))
  | .finalize => .write 32 0x00 (encode .finalize)
  | .rdstat => .read 32 0x18
  | .rdres => .read 64 0x10
  | .cmd w => .write 32 0x00 w

/-- The inputs of a host program of one agent, in issue order. -/
def hostInputs (agent : Nat) (ops : List HostOp) : List Input := ops.map fun op => .access agent (hostAccess op)

/-- R61: `APPENDI n, v`. -/
def appendI (n : BitVec 4) (v : Word) : List HostOp := [.wdata v, .append n]

/-- R61: v = Σ b(i) << 8i, the bytes above them 0. -/
def packBytes : List Byte → Word
  | [] => 0
  | b :: bs => b.setWidth 64 + (packBytes bs <<< 8)

/-- `APPENDI` of one chunk of at most 8 bytes. -/
def appendChunkOps (C : List Byte) : List HostOp := appendI (BitVec.ofNat 4 C.length) (packBytes C)

/-- R61: the chunks of `APPENDS`, 8 bytes each but the last. The first argument bounds their number; the length of the
message is always enough. -/
def chunksOf8 : Nat → List Byte → List (List Byte)
  | 0, _ => []
  | k + 1, M => if M.isEmpty then [] else M.take 8 :: chunksOf8 k (M.drop 8)

/-- The lines that append a list of chunks, in order. -/
def appendAll (chunks : List (List Byte)) : List HostOp := chunks.flatMap appendChunkOps

/-- R61: `APPENDS b0 .. b(k-1)`. -/
def appends (M : List Byte) : List HostOp := appendAll (chunksOf8 M.length M)

/-- R61: `HASH b0 .. b(k-1)`. -/
def hashOps (M : List Byte) : List HostOp := .init :: (appends M ++ [.finalize, .rdres])

end Sys2Proof.Machine
end

