-- ==== Sys2Proof/Machine/Reference.lean ====
section
/-!
DEFINITION. The whole-buffer reference Hash64 as a function of the message (44_streaming.md R108). The machine does not
call it; claims compare the machine with it.
-/

namespace Sys2Proof.Machine

/-- R79, R108: how many block mixes a message of n bytes takes, n > 64. -/
def mixCount (n : Nat) : Nat := (n - 1) / 64

/-- R108's RefState(M, m): InitState on the first word, then m block mixes of the blocks M[64j .. 64j+64). -/
def refState (cfg : Config) (M : List Byte) : Nat → Rolling
  | 0 => initRolling cfg (fetch64 M 0)
  | m + 1 => blockMix cfg (refState cfg M m) ((M.drop (64 * m)).take 64)

/-- R108: the one-shot hash of a message. -/
def referenceHash64 (cfg : Config) (M : List Byte) : Word :=
  if M.length ≤ 64 then shortHash cfg M M.length
  else
    let m := mixCount M.length
    finalHash cfg (refState cfg M m) (M.drop (M.length - 64)) (M.length - 64 * m)

end Sys2Proof.Machine
end

