-- ==== Sys2Proof/Machine/System.lean ====
section
/-!
DEFINITION. A system of N_INST instances, each with its own register window (60_exceptions.md R126, 20_memory.md R45,
70_reset R129). The machine of Core is one instance (log 12). The configuration is
the system's (70_reset R132), one for all instances: `run` is the meaning of the commands under it.
-/

namespace Sys2Proof.Machine

/-- An instance and the base of its window, WINDOW_BASE (R45). -/
structure Placed where
  base : Nat
  block : State
  deriving DecidableEq, Repr

/-- The instances of a system. -/
structure System where
  slots : List Placed
  deriving DecidableEq, Repr

/-- R45, R126: at least one instance, each window 32-byte aligned, and each instance its own window. -/
def systemWf (sys : System) : Bool :=
  !sys.slots.isEmpty && sys.slots.all (fun p => p.base % 32 == 0) &&
    decide (sys.slots.Pairwise fun p q => p.base ≠ q.base)

/-- The byte address or offset an access names. -/
def accessOff : Access → Nat
  | .read _ off => off
  | .write _ off _ => off

/-- The same access at an offset from a window base. -/
def rebase (base : Nat) : Access → Access
  | .read width off => .read width (off - base)
  | .write width off value => .write width (off - base) value

/-- Whether an address lies in the 32-byte window at `base` (R25, R33). -/
def inWindow (base addr : Nat) : Bool := decide (base ≤ addr) && decide (addr < base + 32)

/-- One access at an absolute address, performed by the instance whose window holds it. -/
def routeAccess (run : Meaning) (agent : Nat) (a : Access) : List Placed → Host.Outcome (List Placed) Fault Refusal
  | [] => .refused .noWindow
  | p :: ps =>
    if inWindow p.base (accessOff a) then
      match performAccess run agent (rebase p.base a) p.block with
      | .next b => .next ({ p with block := b } :: ps)
      | .fault f => .fault f
      | .refused r => .refused r
    else
      match routeAccess run agent a ps with
      | .next qs => .next (p :: qs)
      | .fault f => .fault f
      | .refused r => .refused r

/-- One access to the system. -/
def systemAccess (run : Meaning) (agent : Nat) (a : Access) (sys : System) : Host.Outcome System Fault Refusal :=
  match routeAccess run agent a sys.slots with
  | .next ps => .next ⟨ps⟩
  | .fault f => .fault f
  | .refused r => .refused r

/-- R126, R129: the instances are reset together. -/
def systemReset (sys : System) : System :=
  ⟨sys.slots.map fun p => { p with block := resetState p.block }⟩

end Sys2Proof.Machine
end

