-- ==== Sys2Proof/Safety.lean ====
section
/-!
DEFINITION. What claims about the machine are stated with: the invariant of the state, the message a state holds,
and the agreement of two states on everything a fingerprint may depend on.
-/

namespace Sys2Proof.Machine

/-- What every reachable state meets, field against field (10_state.md R16, R18, R23, R27; 60_exceptions.md R111, R113,
R114, R117). -/
structure StateInv (s : State) : Prop where
  /-- R18: CURSOR is never 65..127. -/
  cursorRange : s.cursor.toNat ≤ 64
  /-- R90, R107: once a block has been mixed at least one byte is buffered. -/
  trailing : s.hasMixed = true → 1 ≤ s.cursor.toNat
  /-- R16, R106: the rolling state is zero until the first mix. -/
  rollingFresh : s.hasMixed = false → s.roll = Rolling.zero
  /-- R27: RESULT is 0 while DONE = 0. -/
  resultFresh : s.done = false → s.result = 0
  /-- R23: ERR is set exactly when CAUSE names an error. -/
  causeSet : s.err = true ↔ s.cause ≠ 0
  /-- R111, R113: CAUSE is never INTERNAL (4) or a reserved code (5..15). -/
  causeRange : s.cause.toNat ≤ 3
  /-- R117: an error flagged is an error logged. -/
  errLogged : s.err = true → s.faultLog ≠ []
  /-- R113: INTERNAL is never raised. -/
  noInternal : ∀ e ∈ s.faultLog, e.cause ≠ .internal

/-- R106 and R107: the state holds the message M, the bytes accepted since the last INIT or reset (R13). -/
def HoldsMessage (cfg : Config) (M : List Byte) (s : State) : Prop :=
  if s.hasMixed then
    let m := mixCount M.length
    let r := M.length - 64 * m
    64 < M.length ∧ s.cursor.toNat = r ∧ s.roll = refState cfg M m ∧
      ∀ j < 64, byteAt s.buf.toList j = if j < r then byteAt M (64 * m + j) else byteAt M (64 * m - 64 + j)
  else
    M.length ≤ 64 ∧ s.cursor.toNat = M.length ∧ s.buf.toList.take M.length = M ∧ s.roll = Rolling.zero

/-- R13: the message after a command, from the one before it; a rejected command does not extend it (R115). -/
def messageAfter (i : Instr) (s : State) (M : List Byte) : List Byte :=
  match i with
  | .init => []
  | .append len => if s.done || decide (8 < len.toNat) then M else M ++ dataChunk len.toNat s.data
  | .finalize => M

/-- The command the next pending input issues, if it is a CMD write of a legal word. -/
def nextCommand (s : State) : Option Instr :=
  match s.pending with
  | .access _ a :: _ =>
    match windowRequest a with
    | some (.command w) =>
      match decode w with
      | .instr i => some i
      | .illegal _ => none
    | _ => none
  | _ => none

/-- The value the next pending input writes to DATA, if it is a DATA write. -/
def nextDataWrite (s : State) : Option Word :=
  match s.pending with
  | .access _ a :: _ =>
    match windowRequest a with
    | some (.writeData v) => some v
    | _ => none
  | _ => none

/-- Whether the next pending input is reset. -/
def resetNext (s : State) : Bool :=
  match s.pending with
  | .reset :: _ => true
  | _ => false

/-- R13: the message after a step, from the one before it; reset and INIT start a new one. -/
def messageAfterStep (s : State) (M : List Byte) : List Byte :=
  if resetNext s then []
  else
    match nextCommand s with
    | some i => messageAfter i s M
    | none => M

/-- The lines a host may write between INIT and FINALIZE without ending the message: DATA writes, legal APPENDs, reads,
and illegal words (R115, R133, R137). -/
def messageOp : HostOp → Bool
  | .wdata _ => true
  | .append n => decide (n.toNat ≤ 8)
  | .rdstat => true
  | .rdres => true
  | .cmd w =>
    match decode w with
    | .instr _ => false
    | .illegal _ => true
  | .init => false
  | .finalize => false

/-- R13, R56, R134: the bytes the APPENDs of such lines take from DATA, in order; the first argument is DATA before them. -/
def deliveredBytes : Word → List HostOp → List Byte
  | _, [] => []
  | _, .wdata v :: ops => deliveredBytes v ops
  | d, .append n :: ops => dataChunk n.toNat d ++ deliveredBytes d ops
  | d, .init :: ops => deliveredBytes d ops
  | d, .finalize :: ops => deliveredBytes d ops
  | d, .rdstat :: ops => deliveredBytes d ops
  | d, .rdres :: ops => deliveredBytes d ops
  | d, .cmd _ :: ops => deliveredBytes d ops

/-- R102, R134: APPENDs performed one after the other, each with the DATA value the host wrote before it. -/
def performAppends (run : Meaning) : List (BitVec 4 × Word) → State → Host.Outcome State Fault Refusal
  | [], s => .next s
  | (n, v) :: rest, s =>
    match run (.append n) { s with data := v } with
    | .next t => performAppends run rest t
    | .fault f => .fault f
    | .refused r => .refused r

/-- R16, R19, R130: two states that agree on everything but the rolling state before the first mix and, before it, the
bytes of BUF at or beyond CURSOR. -/
def SameMessageState (s t : State) : Prop :=
  t = { s with roll := t.roll, buf := t.buf } ∧
    (s.hasMixed = true → t.roll = s.roll ∧ t.buf = s.buf) ∧
    (s.hasMixed = false → ∀ j < s.cursor.toNat, byteAt t.buf.toList j = byteAt s.buf.toList j)

end Sys2Proof.Machine
end

