-- ==== Sys2Proof/Certificates/Slice0/Obligations.lean ====
section
/-!
DEFINITION. The statements for the provers. Each docstring names the rule or rules of spec/ it formalises, and the log
entry where it rests on a choice of the model's.
-/

open Sys2Proof Sys2Proof.Machine

/-! ## Encoding -/

/-- R62, word for word: the worked encodings and the four illegal words. -/
def Obligations.WorkedEncodingsDecode : Prop :=
  encode .init = 0x00000001 ∧ encode (.append 0) = 0x00000002 ∧ encode (.append 3) = 0x00000032 ∧
  encode (.append 8) = 0x00000082 ∧ encode .finalize = 0x00000003 ∧
  decode 0x00000001 = .instr .init ∧ decode 0x00000002 = .instr (.append 0) ∧
  decode 0x00000032 = .instr (.append 3) ∧ decode 0x00000082 = .instr (.append 8) ∧
  decode 0x00000003 = .instr .finalize ∧
  (∀ w ∈ [0x00000092, 0x00000011, 0x00000102, 0x00000000], ∃ why, decode w = .illegal why)

/-- R54, R59: encoding then decoding gives every well-formed command back, and a word that decodes to a command is that
command's one word, so no two words share a command and no illegal word decodes. -/
def Obligations.DecodeAndEncodeAgree : Prop :=
  (∀ i : Instr, i.wellFormed = true → decode (encode i) = .instr i) ∧
  (∀ (w : CmdWord) (i : Instr), decode w = .instr i → i.wellFormed = true ∧ encode i = w)

/-- R54: a word is a command exactly when it matches the row (word & mask = match, and LEN ≤ 8 for APPEND). -/
def Obligations.DecodeMatchesTableRows : Prop :=
  ∀ w : CmdWord,
    (decode w = .instr .init ↔ w &&& 0xFFFFFFFF = 0x00000001) ∧
    (∀ len : BitVec 4, decode w = .instr (.append len) ↔
      w &&& 0xFFFFFF0F = 0x00000002 ∧ len.toNat = w.toNat / 16 % 16 ∧ w.toNat / 16 % 16 ≤ 8) ∧
    (decode w = .instr .finalize ↔ w &&& 0xFFFFFFFF = 0x00000003)

/-- R58: exactly the four kinds of word are illegal, and an illegal word raises ILLEGAL_CMD with the word as its
information and changes nothing but ERR and CAUSE (and the model's fault log, log 9). -/
def Obligations.IllegalWordsRaiseIllegalCmd : Prop :=
  ∀ w : CmdWord,
    let op := w.toNat % 16
    let len := w.toNat / 16 % 16
    let rsv := w.toNat / 256
    ((∃ why, decode w = .illegal why) ↔
      (op = 0 ∨ 4 ≤ op) ∨ rsv ≠ 0 ∨ ((op = 1 ∨ op = 3) ∧ len ≠ 0) ∨ (op = 2 ∧ 8 < len)) ∧
    ((∃ why, decode w = .illegal why) → ∀ s : State,
      command exec w s = .next { s with
        err := true
        cause := if s.err then s.cause else 3
        faultLog := s.faultLog ++ [⟨.illegalCmd, w⟩] })

/-! ## The step -/

/-- R43, R47, R52: when the next input is the owner's write of a word that decodes to i, the step is exec of i, on the
state with that input taken and the agent noted as owner (log 1, log 5); a word that decodes to no command raises (its entry at
the end of the fault log: log 9). -/
def Obligations.StepRunsDecodedCommand : Prop :=
  ∀ (s : State) (agent : Nat) (w : CmdWord) (rest : List Input),
    s.pending = .access agent (.write 32 0x00 w) :: rest → (s.owner = none ∨ s.owner = some agent) →
    (∀ i, decode w = .instr i → step s = exec i { s with pending := rest, owner := some agent }) ∧
    (∀ why, decode w = .illegal why →
      step s = .next (raiseError .illegalCmd w { s with pending := rest, owner := some agent }))

/-- R47, and the model's form of the outside (log 1, log 10): with nothing pending the state stays; a pending reset is
performed; the word `withFetchWord` places is the very next one performed. -/
def Obligations.StepTakesTheNextInput : Prop :=
  (∀ s : State, s.pending = [] → step s = .next s) ∧
  (∀ (s : State) (rest : List Input), s.pending = .reset :: rest →
    step s = .next (resetState { s with pending := rest })) ∧
  (∀ (s : State) (w : CmdWord) (i : Instr), decode w = .instr i →
    step (s.withFetchWord 32 w.toNat) = exec i { s with owner := some (s.owner.getD 0) })

/-! ## INIT -/

/-- R101: INIT's effect, in every mode and every state: it writes every state register but DATA; it is idempotent; it
starts the empty message; STATUS reads 0 after it; and it is the only command that leaves FINALIZED. -/
def Obligations.InitGivesFreshState : Prop :=
  (∀ s : State, exec .init s = .next { s with
    roll := ⟨0, 0, 0, 0, 0, 0, 0⟩
    buf := Vector.replicate 64 0
    cursor := 0
    hasMixed := false
    done := false
    err := false
    cause := 0
    result := 0 }) ∧
  (∀ s t : State, exec .init s = .next t →
    exec .init t = .next t ∧ HoldsMessage activeConfig [] t ∧ statusWord t = 0) ∧
  (∀ (i : Instr) (s t : State), s.done = true → exec i s = .next t → t.done = false → i = .init)

/-! ## APPEND -/

/-- R99 (first branch), R102, R105: an APPEND whose bytes fit copies them, moves CURSOR, and changes nothing else. The
first hypotheses are R102's: a legal LEN, DONE = 0, CURSOR in its range. -/
def Obligations.AppendWithinTheBuffer : Prop :=
  ∀ (s : State) (n : BitVec 4), n.toNat ≤ 8 → s.done = false → s.cursor.toNat + n.toNat ≤ 64 →
    ∃ b : Buffer, exec (.append n) s =
        .next { s with buf := b, cursor := BitVec.ofNat 7 (s.cursor.toNat + n.toNat) } ∧
      ∀ j < 64, byteAt b.toList j =
        if s.cursor.toNat ≤ j ∧ j < s.cursor.toNat + n.toNat then
          s.data.extractLsb' (8 * (j - s.cursor.toNat)) 8
        else byteAt s.buf.toList j

/-- R99 (second branch), R100, R102, R105: an APPEND that does not fit completes the 64-byte block, initialises the
rolling state if this is the first block, mixes the block once, and leaves the remaining bytes at the front of BUF and
the mixed block behind them. -/
def Obligations.AppendAcrossTheBlock : Prop :=
  ∀ (s : State) (n : BitVec 4), n.toNat ≤ 8 → s.done = false → s.cursor.toNat ≤ 64 →
    64 < s.cursor.toNat + n.toNat →
    let c := s.cursor.toNat
    let C := dataChunk n.toNat s.data
    let B := s.buf.toList.take c ++ C.take (64 - c)
    let r0 := if s.hasMixed then s.roll else initRolling activeConfig (fetch64 B 0)
    ∃ b : Buffer, exec (.append n) s = .next { s with
        roll := blockMix activeConfig r0 B
        buf := b
        cursor := BitVec.ofNat 7 (c + n.toNat - 64)
        hasMixed := true } ∧
      ∀ j < 64, byteAt b.toList j =
        if j < c + n.toNat - 64 then s.data.extractLsb' (8 * (64 - c + j)) 8 else byteAt B j

/-- R100, for every configuration and a chunk of any length: at CURSOR = 64 the full buffer is mixed first, with
InitState before it if HASMIXED = 0, and then the chunk is appended from CURSOR = 0, so that it starts a new block (up to
64 bytes are then only stored); and a buffer that reaches exactly 64 bytes is not mixed. -/
def Obligations.FullBufferMixesBeforeStoring : Prop :=
  (∀ (cfg : Config) (s : State) (C : List Byte), s.cursor = 64 → 1 ≤ C.length →
    appendChunk cfg C s = appendChunk cfg C { s with
      roll := blockMix cfg (if s.hasMixed then s.roll else initRolling cfg (fetch64 s.buf.toList 0)) s.buf.toList
      cursor := 0
      hasMixed := true }) ∧
  (∀ (cfg : Config) (s : State) (C : List Byte), s.cursor = 64 → 1 ≤ C.length → C.length ≤ 64 →
    appendChunk cfg C s = { s with
      roll := blockMix cfg (if s.hasMixed then s.roll else initRolling cfg (fetch64 s.buf.toList 0)) s.buf.toList
      buf := storeBytes s.buf 0 C
      cursor := BitVec.ofNat 7 C.length
      hasMixed := true }) ∧
  (∀ (cfg : Config) (s : State) (C : List Byte), s.cursor.toNat + C.length = 64 →
    appendChunk cfg C s = { s with buf := storeBytes s.buf s.cursor.toNat C, cursor := 64 })

/-- R102, R44: APPEND with LEN = 0 changes nothing while DONE = 0. -/
def Obligations.EmptyAppendChangesNothing : Prop :=
  ∀ s : State, s.done = false → s.cursor.toNat ≤ 64 → exec (.append 0) s = .next s

/-- The frame of APPEND (R99, R102, R115): DATA, RESULT and DONE stay; ERR, CAUSE and the fault log change only when it
raises; the rolling state and HASMIXED change only when a block is completed; the bytes of BUF outside those the chunk
is stored to stay, and when it raises all of BUF, CURSOR, HASMIXED and the rolling state stay. The model's own pending,
replies and owner stay. -/
def Obligations.AppendFrame : Prop :=
  ∀ (s t : State) (n : BitVec 4), exec (.append n) s = .next t →
    let c := s.cursor.toNat
    let raises := s.done = true ∨ 8 < n.toNat
    t.data = s.data ∧ t.result = s.result ∧ t.done = s.done ∧ t.pending = s.pending ∧ t.replies = s.replies ∧
    t.owner = s.owner ∧
    (¬raises → t.err = s.err ∧ t.cause = s.cause ∧ t.faultLog = s.faultLog) ∧
    (raises ∨ c + n.toNat ≤ 64 → t.roll = s.roll ∧ t.hasMixed = s.hasMixed) ∧
    (raises → t.buf = s.buf ∧ t.cursor = s.cursor) ∧
    (∀ j < 64, ¬(c ≤ j ∧ j < c + n.toNat) → ¬(j < c + n.toNat - 64) →
      byteAt t.buf.toList j = byteAt s.buf.toList j)

/-! ## FINALIZE -/

/-- R103, R104 (the fault log: log 9): FINALIZE with DONE = 1 raises and changes no state but ERR and CAUSE; otherwise RESULT is the arbiter's
value and DONE becomes 1, and nothing else changes, whatever ERR is; the empty message gives K2. The hypotheses on CURSOR
are its range (R18) and the finalizer's precondition (R90). -/
def Obligations.FinalizeDeliversTheArbiterValue : Prop :=
  (∀ s : State, s.done = true → exec .finalize s = .next { s with
    err := true
    cause := if s.err then s.cause else 2
    faultLog := s.faultLog ++ [⟨.finalizeAfterFinalize, 0x00000003⟩] }) ∧
  (∀ s : State, s.done = false → s.hasMixed = false → s.cursor.toNat ≤ 64 →
    exec .finalize s = .next { s with
      result := shortHash activeConfig s.buf.toList s.cursor.toNat, done := true }) ∧
  (∀ s : State, s.done = false → s.hasMixed = true → 1 ≤ s.cursor.toNat → s.cursor.toNat ≤ 64 →
    exec .finalize s = .next { s with
      result := finalHash activeConfig s.roll (rotateBuffer s.buf s.cursor.toNat) s.cursor.toNat, done := true }) ∧
  (∀ s : State, s.done = false → s.hasMixed = false → s.cursor = 0 →
    exec .finalize s = .next { s with result := 0x9ae16a3b2f90404f, done := true })

/-- R90, R113 as the model reads them (log 7): the finalizer selected with a trailing length outside 1..64 raises
INTERNAL, and RESULT and DONE stay as they were (the entry stands at the end of the fault log: log 9). -/
def Obligations.FinalizerPreconditionRaisesInternal : Prop :=
  ∀ s : State, s.done = false → s.hasMixed = true → (s.cursor.toNat = 0 ∨ 64 < s.cursor.toNat) →
    exec .finalize s = .next { s with
      err := true
      cause := if s.err then s.cause else 4
      faultLog := s.faultLog ++ [⟨.internal, 0x00000003⟩] }

/-! ## Errors -/

/-- R112: misuse is detected from DONE alone: with DONE = 1 every APPEND, the empty one too, raises
APPEND_AFTER_FINALIZE, and FINALIZE raises FINALIZE_AFTER_FINALIZE; with DONE = 0 neither raises its own cause. What is
raised shows in the fault log too, at its end (log 9). -/
def Obligations.MisuseAfterFinalizeRaises : Prop :=
  ∀ s : State,
    (s.done = true →
      (∀ n : BitVec 4, n.toNat ≤ 8 → exec (.append n) s = .next { s with
        err := true
        cause := if s.err then s.cause else 1
        faultLog := s.faultLog ++ [⟨.appendAfterFinalize, encode (.append n)⟩] }) ∧
      exec .finalize s = .next { s with
        err := true
        cause := if s.err then s.cause else 2
        faultLog := s.faultLog ++ [⟨.finalizeAfterFinalize, encode .finalize⟩] }) ∧
    (s.done = false → ∀ (i : Instr) (t : State) (info : CmdWord), exec i s = .next t →
      t.faultLog ≠ s.faultLog ++ [⟨.appendAfterFinalize, info⟩] ∧
      t.faultLog ≠ s.faultLog ++ [⟨.finalizeAfterFinalize, info⟩])

/-- R114, R115: a CMD write that raises, shown by the fault log, sets ERR, writes the cause's code to CAUSE if ERR was 0
and keeps CAUSE otherwise, and leaves every other state register as it was; the log gains the cause with the CMD word (at its end: log 9). -/
def Obligations.ErrorsArePrecise : Prop :=
  ∀ (w : CmdWord) (s t : State), command exec w s = .next t → t.faultLog ≠ s.faultLog →
    ∃ c : Cause, t = { s with
      err := true
      cause := if s.err then s.cause else causeCode c
      faultLog := s.faultLog ++ [⟨c, w⟩] }

/-- R118: an illegal word raises ILLEGAL_CMD whatever DONE is; a legal one is then checked against DONE; and one command
raises at most one cause (its entry stands at the end of the fault log: log 9). -/
def Obligations.DecodeComesBeforeTheDoneCheck : Prop :=
  ∀ (w : CmdWord) (s : State),
    (∀ why, decode w = .illegal why → command exec w s = .next (raiseError .illegalCmd w s)) ∧
    (∀ n : BitVec 4, decode w = .instr (.append n) → s.done = true →
      command exec w s = .next (raiseError .appendAfterFinalize w s)) ∧
    (decode w = .instr .finalize → s.done = true → command exec w s = .next (raiseError .finalizeAfterFinalize w s)) ∧
    (∀ t, command exec w s = .next t → t.faultLog = s.faultLog ∨ ∃ c, t.faultLog = s.faultLog ++ [⟨c, w⟩])

/-- R117: no step clears the fault log: it stays or gains one entry, at its end (log 9). -/
def Obligations.FaultLogOnlyGrows : Prop :=
  ∀ s t : State, step s = .next t → t.faultLog = s.faultLog ∨ ∃ e, t.faultLog = s.faultLog ++ [e]

/-- R23, R121: only INIT and reset clear ERR; while ERR stays set CAUSE keeps its code; and CAUSE changes from an error's
code only with ERR cleared. -/
def Obligations.OnlyInitAndResetClearErr : Prop :=
  ∀ s t : State, step s = .next t → s.err = true →
    (t.err = false → nextCommand s = some .init ∨ resetNext s = true) ∧ (t.err = true → t.cause = s.cause)

/-! ## Who writes what -/

/-- R20: APPEND alone sets HASMIXED; only INIT and reset clear it. -/
def Obligations.OnlyAppendSetsHasMixed : Prop :=
  ∀ s t : State, step s = .next t →
    (s.hasMixed = false → t.hasMixed = true → ∃ n, nextCommand s = some (.append n)) ∧
    (s.hasMixed = true → t.hasMixed = false → nextCommand s = some .init ∨ resetNext s = true) ∧
    (nextCommand s = some .init ∨ resetNext s = true → t.hasMixed = false)

/-- R21, R27: FINALIZE alone sets DONE; only INIT and reset clear it; RESULT changes only by a FINALIZE that sets DONE,
by INIT, or by reset. -/
def Obligations.OnlyFinalizeSetsDoneAndResult : Prop :=
  ∀ s t : State, step s = .next t →
    (s.done = false → t.done = true → nextCommand s = some .finalize) ∧
    (s.done = true → t.done = false → nextCommand s = some .init ∨ resetNext s = true) ∧
    (t.result ≠ s.result →
      (nextCommand s = some .finalize ∧ s.done = false ∧ t.done = true) ∨
      ((nextCommand s = some .init ∨ resetNext s = true) ∧ t.result = 0))

/-- R26: DATA takes the value of a DATA write, 0 at reset, and is changed by no command. -/
def Obligations.DataChangesOnlyByItsWrites : Prop :=
  (∀ s t : State, step s = .next t →
    t.data = if resetNext s then 0 else (nextDataWrite s).getD s.data) ∧
  (∀ (i : Instr) (s t : State), exec i s = .next t → t.data = s.data)

/-- R15, R17, R18: only APPEND, INIT and reset write the rolling state, BUF and CURSOR. -/
def Obligations.OnlyAppendAndInitWriteTheHashState : Prop :=
  ∀ s t : State, step s = .next t → (t.roll ≠ s.roll ∨ t.buf ≠ s.buf ∨ t.cursor ≠ s.cursor) →
    (∃ n, nextCommand s = some (.append n)) ∨ nextCommand s = some .init ∨ resetNext s = true

/-! ## Reset -/

/-- R129: reset's effect is exactly INIT's, and in addition it sets DATA to 0. -/
def Obligations.ResetIsInitAndClearsData : Prop :=
  ∀ s t : State, exec .init s = .next t → resetState s = { t with data := 0 }

/-- R130's table, the columns after reset and after INIT, and STATUS after both. The model's own four fields of the reset
state are its choice (log 1, 5, 9, 13) and are not claimed here. -/
def Obligations.ResetTable : Prop :=
  (State.reset.roll = ⟨0, 0, 0, 0, 0, 0, 0⟩ ∧ (∀ j < 64, byteAt State.reset.buf.toList j = 0) ∧
    State.reset.cursor = 0 ∧ State.reset.hasMixed = false ∧ State.reset.done = false ∧ State.reset.err = false ∧
    State.reset.cause = 0 ∧ State.reset.result = 0 ∧ State.reset.data = 0 ∧ statusWord State.reset = 0) ∧
  (∀ s t : State, exec .init s = .next t →
    t.roll = ⟨0, 0, 0, 0, 0, 0, 0⟩ ∧ (∀ j < 64, byteAt t.buf.toList j = 0) ∧ t.cursor = 0 ∧ t.hasMixed = false ∧
    t.done = false ∧ t.err = false ∧ t.cause = 0 ∧ t.result = 0 ∧ t.data = s.data ∧ statusWord t = 0)

/-! ## Invariants -/

/-- The state after reset meets the invariant. -/
def Obligations.ResetMeetsStateInv : Prop := StateInv State.reset

/-- R16, R18, R23, R27, R106, R111, R113, R117: every step keeps the invariant, from every state that meets it. -/
def Obligations.StepKeepsStateInv : Prop :=
  ∀ s t : State, StateInv s → step s = .next t → StateInv t

/-- R113, R116, R118: from a state that meets the invariant, every CMD write, of a legal or an illegal word, completes
with a next state, and it never raises INTERNAL (whose entry would stand at the end of the fault log: log 9). -/
def Obligations.EveryCommandCompletes : Prop :=
  ∀ (w : CmdWord) (s : State), StateInv s →
    ∃ t, command exec w s = .next t ∧ ∀ info, t.faultLog ≠ s.faultLog ++ [⟨.internal, info⟩]

/-- R99, R106, R107, for every configuration and a chunk of any length: Append(C) takes a state that holds M to one that
holds M ++ C. -/
def Obligations.AppendExtendsTheMessage : Prop :=
  ∀ (cfg : Config) (M C : List Byte) (s : State), HoldsMessage cfg M s →
    HoldsMessage cfg (M ++ C) (appendChunk cfg C s)

/-- R106, R107: every step keeps the message invariant, for the message that R13 gives after it. -/
def Obligations.StepKeepsTheMessageInvariant : Prop :=
  ∀ (M : List Byte) (s t : State), HoldsMessage activeConfig M s → step s = .next t →
    HoldsMessage activeConfig (messageAfterStep s M) t

/-- R107 (d), (e), R91: once a block has been mixed, BUF rotated left by CURSOR is the last 64 bytes of the message, and
CURSOR is the trailing length, in 1..64. -/
def Obligations.RotationGivesTheLast64Bytes : Prop :=
  ∀ (cfg : Config) (M : List Byte) (s : State), HoldsMessage cfg M s → s.hasMixed = true →
    rotateBuffer s.buf s.cursor.toNat = M.drop (M.length - 64) ∧
    1 ≤ s.cursor.toNat ∧ s.cursor.toNat ≤ 64 ∧ s.cursor.toNat = (M.length - 1) % 64 + 1

/-! ## The hash -/

/-- R108, R104: for every configuration (whose band functions meet R81, as Config requires), the arbiter's value in a state
that holds M is the one-shot Hash64 of M. -/
def Obligations.ArbiterValueIsHash64 : Prop :=
  ∀ (cfg : Config) (M : List Byte) (s : State), HoldsMessage cfg M s →
    arbiter cfg s = referenceHash64 cfg M

/-- R103, R108: FINALIZE in a state that holds M, with DONE = 0, leaves RESULT = Hash64(M) and DONE = 1 and changes
nothing else. -/
def Obligations.FinalizeGivesHash64 : Prop :=
  ∀ (M : List Byte) (s : State), HoldsMessage activeConfig M s → s.done = false →
    exec .finalize s = .next { s with result := referenceHash64 activeConfig M, done := true }

/-- R109 for the append step: appending C and then D is appending C ++ D, state for state, for every configuration and
chunks of any length. -/
def Obligations.ChunkBoundariesDoNotMatter : Prop :=
  ∀ (cfg : Config) (C D : List Byte) (s : State), s.cursor.toNat ≤ 64 →
    appendChunk cfg D (appendChunk cfg C s) = appendChunk cfg (C ++ D) s

/-- R109: chunks of any length, appended in order to the fresh state, give the arbiter Hash64 of their concatenation,
whatever the partition; and after INIT, every sequence of legal APPENDs, each with its DATA value, then FINALIZE,
completes with RESULT = Hash64 of the chunks concatenated. -/
def Obligations.LegalAppendsThenFinalizeGiveHash64 : Prop :=
  (∀ (s : State) (chunks : List (List Byte)),
    arbiter activeConfig (chunks.foldl (fun u C => appendChunk activeConfig C u) (freshState s)) =
      referenceHash64 activeConfig chunks.flatten) ∧
  ∀ (s t : State) (deliveries : List (BitVec 4 × Word)), exec .init s = .next t →
    (∀ d ∈ deliveries, d.1.toNat ≤ 8) →
    ∃ u v, performAppends exec deliveries t = .next u ∧ exec .finalize u = .next v ∧
      v.result = referenceHash64 activeConfig (deliveries.flatMap fun d => dataChunk d.1.toNat d.2)

/-- R109, with R133's sequence and R137, over whole runs of the host's inputs (log 1, log 5, log 13): from every state, the host's INIT, then any DATA writes and legal APPENDs, among
which it may read STATUS and RESULT or write illegal words, then FINALIZE and a RESULT read, complete; RESULT and the value
read are Hash64 of the bytes the APPENDs took from DATA, in order, and DONE is 1; and where no illegal word was written,
ERR is 0 and nothing was logged. -/
def Obligations.HostSequenceComputesHash64 : Prop :=
  ∀ (s : State) (agent : Nat) (ops : List HostOp), (∀ op ∈ ops, messageOp op = true) →
    (s.owner = none ∨ s.owner = some agent) →
    let program := HostOp.init :: (ops ++ [.finalize, .rdres])
    let hash := referenceHash64 activeConfig (deliveredBytes s.data ops)
    ∃ t : State, Sys2Proof.core.run program.length { s with pending := hostInputs agent program } = .next t ∧
      t.result = hash ∧ t.done = true ∧ t.pending = [] ∧ t.replies.getLast? = some (.word64 hash) ∧
      ((∀ w, HostOp.cmd w ∉ ops) → t.err = false ∧ t.faultLog = s.faultLog)

/-- R61, R108: the HASH program of a message completes from every state and reads Hash64 of it (the run's inputs, owner
and replies are the model's own: log 1, log 5, log 13). -/
def Obligations.HashProgramComputesHash64 : Prop :=
  ∀ (s : State) (agent : Nat) (M : List Byte), (s.owner = none ∨ s.owner = some agent) →
    ∃ t : State, Sys2Proof.core.run (hashOps M).length { s with pending := hostInputs agent (hashOps M) } = .next t ∧
      t.result = referenceHash64 activeConfig M ∧ t.done = true ∧ t.err = false ∧
      t.replies = s.replies ++ [.word64 (referenceHash64 activeConfig M)]

/-- R83: the length-0 result is K2, BUF unread: INIT then FINALIZE, from every state, gives it, and STATUS then reads 1. -/
def Obligations.EmptyMessageGivesK2 : Prop :=
  (∀ S : List Byte, shortHash activeConfig S 0 = 0x9ae16a3b2f90404f) ∧
  (∀ s : State, ∃ t u, exec .init s = .next t ∧ exec .finalize t = .next u ∧ u.result = 0x9ae16a3b2f90404f ∧
    statusWord u = 0x00000001)

/-- R61: APPENDS splits the bytes into ⌈k/8⌉ chunks of 8 bytes each but the last, in order, and each APPENDI line
delivers exactly its chunk. -/
def Obligations.AppendsExpansionDeliversTheBytes : Prop :=
  ∀ M : List Byte,
    (chunksOf8 M.length M).flatten = M ∧
    (chunksOf8 M.length M).length = (M.length + 7) / 8 ∧
    (∀ (j : Nat) (C : List Byte), (chunksOf8 M.length M)[j]? = some C → C.length = min 8 (M.length - 8 * j)) ∧
    (∀ C ∈ chunksOf8 M.length M, dataChunk C.length (packBytes C) = C)

/-- R16, R19, R130: the rolling state before the first mix and the bytes of BUF at or beyond CURSOR before it never
reach a fingerprint or a host-visible register: two states that differ only there run every command alike. -/
def Obligations.UnwrittenStateNeverReachesAFingerprint : Prop :=
  ∀ (i : Instr) (s t s' : State), SameMessageState s t → exec i s = .next s' →
    ∃ t', exec i t = .next t' ∧ SameMessageState s' t' ∧ t'.result = s'.result ∧ statusWord t' = statusWord s'

/-! ## The datapath -/

/-- R34, R35, R69, R70: byte off + i is bits 8i+7 : 8i of the word read at off, and a 32-bit read is zero-extended. The
statement also holds of a read past the end of S, where a byte counts as 0; that is the model's choice (log 11). -/
def Obligations.FetchIsLittleEndian : Prop :=
  ∀ (S : List Byte) (off : Nat),
    (∀ i < 8, (fetch64 S off).extractLsb' (8 * i) 8 = byteAt S (off + i)) ∧
    (∀ i < 4, (fetch32 S off).extractLsb' (8 * i) 8 = byteAt S (off + i)) ∧
    (fetch32 S off).toNat < 2 ^ 32

/-- R37: a 32-bit read is the low half of the 64-bit read at the same offset. -/
def Obligations.Fetch32IsTheLowHalfOfFetch64 : Prop :=
  ∀ (S : List Byte) (off : Nat), off + 8 ≤ S.length →
    (fetch32 S off).setWidth 32 = (fetch64 S off).extractLsb' 0 32 ∧ fetch32 S off = ((fetch64 S off).setWidth 32).setWidth 64

/-- R67, R68, R72, R73: rotr is the 64-bit right rotation; shiftMix leaves a value below 2^47; combine16 of zeros, and
with multiplier 0, is 0; weakHash's first component is the plain sum. -/
def Obligations.PrimitiveCornerCases : Prop :=
  (∀ (x : Word) (k : Nat), k < 64 → rotr x k = x.rotateRight k) ∧
  (∀ v : Word, v.toNat < 2 ^ 47 → shiftMix v = v) ∧
  (∀ u v mul : Word, combine16 0 0 mul = 0 ∧ combine16 u v 0 = 0) ∧
  (∀ p q r s a b : Word, (weakHash p q r s a b).1 = a + p + q + r + s)

/-- R77's corner case, for every configuration: the all-zero state with an all-zero block gives the all-zero state. -/
def Obligations.ZeroBlockKeepsTheZeroState : Prop :=
  ∀ cfg : Config, blockMix cfg Rolling.zero (List.replicate 64 0) = Rolling.zero

/-- R8, R89, R93: every configuration's K0 and K1 are odd, and K2; the bands' multiplier is odd; and the finalizer's
multiplier is odd and is K1 plus an even number from 0 to 510. -/
def Obligations.ConstantsAndMultipliersAreOdd : Prop :=
  constK2.toNat % 2 = 1 ∧ (∀ len : Nat, (bandMul len).toNat % 2 = 1) ∧
  (∀ (cfg : Config) (z : Word), cfg.k0.toNat % 2 = 1 ∧ cfg.k1.toNat % 2 = 1 ∧
    (finalMul cfg z).toNat % 2 = 1 ∧ ∃ e : Word, finalMul cfg z = cfg.k1 + e ∧ e.toNat % 2 = 0 ∧ e.toNat ≤ 510)

/-- R80: every band reads only the first len bytes, so bytes of BUF at offsets at or beyond len never affect the result;
for every configuration, since Config holds its band functions to R81. (A byte past the end of a sequence counts as 0:
log 11.) -/
def Obligations.ShortHashReadsOnlyTheMessage : Prop :=
  ∀ (cfg : Config) (S T : List Byte) (len : Nat), len ≤ 64 → (∀ j < len, byteAt S j = byteAt T j) →
    shortHash cfg S len = shortHash cfg T len

/-- R81, R82, R83: every configuration's band functions, the default ones for any odd K0 and K1 among them, have the
structure Config requires. And what values do not show (log 3) is said of the default formulas, R84 to R88: combine16 is
called not at all for lengths 0 to 3, once for 4 to 32, and twice for 33 to 64, where the first stage is the 17-32 combination with K2 in K1's
place (R88), and its value and its sum y feed the second, over the inner 32 bytes. (A byte past the end of a sequence
counts as 0: log 11.) -/
def Obligations.DefaultBandsHaveTheDocumentStructure : Prop :=
  (∀ cfg : Config, BandStructure cfg.len0to16 cfg.len17to32 cfg.len33to64) ∧
  ∀ (k0 k1 : Word) (h0 : OddConstant k0) (h1 : OddConstant k1) (S : List Byte) (len : Nat),
    BandStructure (standardConfig k0 k1 h0 h1).len0to16 (standardConfig k0 k1 h0 h1).len17to32
      (standardConfig k0 k1 h0 h1).len33to64 ∧
    (len = 0 → shortHash (standardConfig k0 k1 h0 h1) S len = constK2) ∧
    (1 ≤ len → len ≤ 3 → shortHash (standardConfig k0 k1 h0 h1) S len =
      shiftMix (((fetch8 S 0 + (fetch8 S (len / 2) <<< 8)) * constK2) ^^^
        ((lenWord len + (fetch8 S (len - 1) <<< 2)) * k0)) * constK2) ∧
    (4 ≤ len → len ≤ 7 → shortHash (standardConfig k0 k1 h0 h1) S len =
      combine16 (lenWord len + (fetch32 S 0 <<< 3)) (fetch32 S (len - 4)) (bandMul len)) ∧
    (8 ≤ len → len ≤ 16 → shortHash (standardConfig k0 k1 h0 h1) S len =
      combine16 (rotr (fetch64 S (len - 8)) 37 * bandMul len + (fetch64 S 0 + constK2))
        ((rotr (fetch64 S 0 + constK2) 25 + fetch64 S (len - 8)) * bandMul len) (bandMul len)) ∧
    (17 ≤ len → len ≤ 32 → shortHash (standardConfig k0 k1 h0 h1) S len =
      let tail := fetch64 S (len - 8) * bandMul len
      combine16 (rotr (fetch64 S 0 * k1 + fetch64 S 8) 43 + rotr tail 30 + fetch64 S (len - 16) * constK2)
        (fetch64 S 0 * k1 + rotr (fetch64 S 8 + constK2) 18 + tail) (bandMul len)) ∧
    (33 ≤ len → len ≤ 64 → shortHash (standardConfig k0 k1 h0 h1) S len =
      let a := fetch64 S 0 * constK2
      let y := rotr (a + fetch64 S 8) 43 + rotr (fetch64 S (len - 8) * bandMul len) 30 + fetch64 S (len - 16) * constK2
      let e := fetch64 S 16 * bandMul len
      let g := (y + fetch64 S (len - 32)) * bandMul len
      let h := (len17to32 constK2 S len + fetch64 S (len - 24)) * bandMul len
      combine16 (rotr (e + fetch64 S 24) 43 + rotr g 30 + h) (e + rotr (fetch64 S 24 + a) 18 + g) (bandMul len))

/-! ## The host window -/

/-- R41: exactly the listed accesses are admitted, with the effect listed; every other access is refused (log 4). The
owner and the replies are the model's own (log 5, log 13). -/
def Obligations.ExactlyTheListedAccessesAreAdmitted : Prop :=
  ∀ (agent : Nat) (s : State), (s.owner = none ∨ s.owner = some agent) →
    let u := { s with owner := some agent }
    (∀ w, performAccess exec agent (.write 32 0x00 w) s = command exec w u) ∧
    performAccess exec agent (.read 32 0x00) s = .next { u with replies := s.replies ++ [.word32 0] } ∧
    performAccess exec agent (.read 64 0x08) s = .next { u with replies := s.replies ++ [.word64 s.data] } ∧
    (∀ v, performAccess exec agent (.write 64 0x08 v) s = .next { u with data := v }) ∧
    performAccess exec agent (.read 64 0x10) s = .next { u with replies := s.replies ++ [.word64 s.result] } ∧
    (∀ v, performAccess exec agent (.write 64 0x10 v) s = .next u) ∧
    performAccess exec agent (.read 32 0x18) s = .next { u with replies := s.replies ++ [.word32 (statusWord s)] } ∧
    (∀ v, performAccess exec agent (.write 32 0x18 v) s = .next u) ∧
    (∀ width off, (off, width) ∉ [(0x00, 32), (0x08, 64), (0x10, 64), (0x18, 32)] →
      performAccess exec agent (.read width off) s = .refused .hostBadAccess ∧
      ∀ v, performAccess exec agent (.write width off v) s = .refused .hostBadAccess)

/-- R44: a read changes nothing of the block, a DATA write only stores, a CMD write performs the command; INIT is
idempotent; APPEND with LEN ≥ 1 is not, each one moves CURSOR and extends the message; APPEND with LEN = 0 changes no state while DONE = 0; a
second FINALIZE raises FINALIZE_AFTER_FINALIZE. (Owner and replies are the model's own, log 5, log 13;
the entry of a raise stands last, log 9.) -/
def Obligations.AccessSideEffectsAndIdempotency : Prop :=
  (∀ (agent width off : Nat) (s t : State), performAccess exec agent (.read width off) s = .next t →
    t = { s with replies := t.replies, owner := some agent }) ∧
  (∀ (agent : Nat) (v : Word) (s t : State), performAccess exec agent (.write 64 0x08 v) s = .next t →
    t = { s with data := v, owner := some agent }) ∧
  (∀ (agent : Nat) (w : CmdWord) (s : State), (s.owner = none ∨ s.owner = some agent) →
    performAccess exec agent (.write 32 0x00 w) s = command exec w { s with owner := some agent }) ∧
  (∀ s : State, ∃ t, exec .init s = .next t ∧ exec .init t = .next t) ∧
  (∀ (s : State) (n : BitVec 4), 1 ≤ n.toNat → n.toNat ≤ 8 → s.done = false → s.cursor.toNat ≤ 64 →
    ∃ t u, exec (.append n) s = .next t ∧ exec (.append n) t = .next u ∧ u.cursor ≠ t.cursor ∧
      ∀ M : List Byte, HoldsMessage activeConfig M s →
        HoldsMessage activeConfig (M ++ dataChunk n.toNat s.data) t ∧
        HoldsMessage activeConfig (M ++ dataChunk n.toNat s.data ++ dataChunk n.toNat s.data) u) ∧
  (∀ s : State, s.done = false → s.cursor.toNat ≤ 64 → exec (.append 0) s = .next s) ∧
  (∀ s t : State, exec .finalize s = .next t → t.done = true →
    exec .finalize t = .next (raiseError .finalizeAfterFinalize 0x00000003 t))

/-- R28: the fields of STATUS, and its reserved bits, in every state; a read gives them as they are then, and a write
changes nothing of the block (the model's owner field is log 5, its replies log 13). -/
def Obligations.StatusFields : Prop :=
  ∀ s : State,
    (statusWord s).getLsbD 0 = s.done ∧ (statusWord s).getLsbD 1 = s.hasMixed ∧ (statusWord s).getLsbD 2 = s.err ∧
    (statusWord s).getLsbD 3 = false ∧ (statusWord s).extractLsb' 4 4 = s.cause ∧
    (statusWord s).extractLsb' 8 7 = s.cursor ∧ (statusWord s).extractLsb' 15 17 = 0 ∧
    (∀ (agent : Nat) (t : State), performAccess exec agent (.read 32 0x18) s = .next t →
      t.replies = s.replies ++ [.word32 (statusWord s)]) ∧
    (∀ (agent : Nat) (v : BitVec 32) (t : State), performAccess exec agent (.write 32 0x18 v) s = .next t →
      t = { s with owner := some agent })

/-- R48 as the model holds it (log 5): once an agent has accessed the instance, every access of another is refused. -/
def Obligations.SecondAgentIsRefused : Prop :=
  (∀ (s : State) (a b : Nat) (x : Access), s.owner = some a → a ≠ b →
    performAccess exec b x s = .refused .secondAgent) ∧
  (∀ (s t : State) (a : Nat) (x : Access), performAccess exec a x s = .next t → t.owner = some a) ∧
  (∀ (s t : State) (a : Nat), s.owner = some a → step s = .next t → t.owner = some a)

/-- R56, R38: APPEND delivers the chunk taken from DATA: its length, its bytes, and that the bits of DATA above 8n are
ignored; the empty chunk at n = 0. -/
def Obligations.ChunkTakesTheLowBytesOfData : Prop :=
  (∀ (n : BitVec 4) (s : State), n.toNat ≤ 8 → s.done = false → s.cursor.toNat ≤ 64 →
    exec (.append n) s = .next (appendChunk activeConfig (dataChunk n.toNat s.data) s)) ∧
  (∀ data : Word, dataChunk 0 data = []) ∧
  ∀ (n : Nat) (data : Word), n ≤ 8 →
    (dataChunk n data).length = n ∧
    (∀ k < n, byteAt (dataChunk n data) k = data.extractLsb' (8 * k) 8) ∧
    (∀ other : Word, data.toNat % 2 ^ (8 * n) = other.toNat % 2 ^ (8 * n) → dataChunk n other = dataChunk n data)

/-- R22, R105: the mode before and after each command. -/
def Obligations.ModeTransitions : Prop :=
  ∀ s : State, s.cursor.toNat ≤ 64 → (s.hasMixed = true → 1 ≤ s.cursor.toNat) →
    (∃ t, exec .init s = .next t ∧ modeOf t = .buffering) ∧
    (∀ n : BitVec 4, n.toNat ≤ 8 → ∃ t, exec (.append n) s = .next t ∧
      modeOf t = if modeOf s = .buffering ∧ 64 < s.cursor.toNat + n.toNat then .mixing else modeOf s) ∧
    (∃ t, exec .finalize s = .next t ∧ modeOf t = .finalized) ∧
    (∀ (w : CmdWord) (why : IllegalReason), decode w = .illegal why →
      ∃ t, command exec w s = .next t ∧ modeOf t = modeOf s)

/-- R126, R139: an access to one instance of a system changes that instance alone; and reset puts every instance in the
fresh state together. -/
def Obligations.InstancesShareNothing : Prop :=
  (∀ (agent : Nat) (a : Access) (sys sys' : System), systemAccess exec agent a sys = .next sys' →
    ∃ (k : Nat) (p : Placed) (b : State), sys.slots[k]? = some p ∧ inWindow p.base (accessOff a) = true ∧
      performAccess exec agent (rebase p.base a) p.block = .next b ∧
      sys'.slots = sys.slots.set k { p with block := b }) ∧
  (∀ (sys : System) (k : Nat), (systemReset sys).slots[k]? =
    (sys.slots[k]?).map fun p => { p with block := resetState p.block })

/-! ## Every configuration -/

/-- R7, R63: `exec`, `step` and `core` are the machine under the default configuration, whose K0 and K1 are the spec's
general-knowledge defaults (log 2); K2 and SEED have R7's values. -/
def Obligations.TheMachineRunsTheDefaultConfiguration : Prop :=
  (∀ (i : Instr) (s : State), exec i s = execFor activeConfig i s) ∧
  (∀ s : State, step s = stepFor activeConfig s) ∧
  Sys2Proof.core = coreFor activeConfig ∧
  activeConfig.k0 = 0xc3a5c85c97cb3127 ∧ activeConfig.k1 = 0xb492b66fbe98f273 ∧
  constK2 = 0x9ae16a3b2f90404f ∧ constSeed = 81

/-- R101, R102, R103, R104 under every configuration (R7): each command completes with its effect, and each misuse raises
(its entry at the end of the fault log: log 9). -/
def Obligations.CommandsUnderEveryConfiguration : Prop :=
  ∀ (cfg : Config) (s : State),
    execFor cfg .init s = .next (freshState s) ∧
    (∀ n : BitVec 4, n.toNat ≤ 8 → s.done = false → s.cursor.toNat ≤ 64 →
      execFor cfg (.append n) s = .next (appendChunk cfg (dataChunk n.toNat s.data) s)) ∧
    (s.done = false → s.hasMixed = false → s.cursor.toNat ≤ 64 →
      execFor cfg .finalize s = .next { s with
        result := shortHash cfg s.buf.toList s.cursor.toNat, done := true }) ∧
    (s.done = false → s.hasMixed = true → 1 ≤ s.cursor.toNat → s.cursor.toNat ≤ 64 →
      execFor cfg .finalize s = .next { s with
        result := finalHash cfg s.roll (rotateBuffer s.buf s.cursor.toNat) s.cursor.toNat, done := true }) ∧
    (s.done = true →
      (∀ n : BitVec 4, n.toNat ≤ 8 →
        execFor cfg (.append n) s = .next (raiseError .appendAfterFinalize (encode (.append n)) s)) ∧
      execFor cfg .finalize s = .next (raiseError .finalizeAfterFinalize (encode .finalize) s))

/-- R31, R110: no command writes the configuration, and it reaches nothing but the rolling state and RESULT: under two
configurations a command completes alike, and everything else of the state, STATUS too, is the same. -/
def Obligations.ConfigurationReachesOnlyTheHash : Prop :=
  ∀ (cfg cfg' : Config) (i : Instr) (s t : State), execFor cfg i s = .next t →
    ∃ t', execFor cfg' i s = .next t' ∧ t' = { t with roll := t'.roll, result := t'.result } ∧
      statusWord t' = statusWord t

/-- R16, R18, R23, R27, R106, R107, R113 under every configuration (R7): every step keeps the state invariant and the
message invariant. -/
def Obligations.EveryConfigurationKeepsTheInvariants : Prop :=
  ∀ (cfg : Config) (s t : State), stepFor cfg s = .next t →
    (StateInv s → StateInv t) ∧
    (∀ M : List Byte, HoldsMessage cfg M s → HoldsMessage cfg (messageAfterStep s M) t)

/-- R109, R110 with R133's sequence, under every configuration (R7; Config holds its band functions to R81): the
fingerprint is Hash64 of the delivered bytes under that configuration, from every state (log 1, log 5, log 13). -/
def Obligations.EveryConfigurationComputesHash64 : Prop :=
  ∀ (cfg : Config) (s : State) (agent : Nat) (ops : List HostOp),
    (∀ op ∈ ops, messageOp op = true) → (s.owner = none ∨ s.owner = some agent) →
    let program := HostOp.init :: (ops ++ [.finalize, .rdres])
    let hash := referenceHash64 cfg (deliveredBytes s.data ops)
    ∃ t : State, (coreFor cfg).run program.length { s with pending := hostInputs agent program } = .next t ∧
      t.result = hash ∧ t.done = true ∧ t.pending = [] ∧ t.replies.getLast? = some (.word64 hash) ∧
      ((∀ w, HostOp.cmd w ∉ ops) → t.err = false ∧ t.faultLog = s.faultLog)
end

