-- ==== Sys2Proof/Laws/State.lean ====
section
/-!
SUPPORT. One lemma per field per update of the state, so that no later proof unfolds a record update.
-/

namespace Sys2Proof.Machine

section RaiseError
variable (c : Cause) (w : CmdWord) (s : State)
@[simp] theorem raiseError_roll : (raiseError c w s).roll = s.roll := (rfl)
@[simp] theorem raiseError_buf : (raiseError c w s).buf = s.buf := (rfl)
@[simp] theorem raiseError_cursor : (raiseError c w s).cursor = s.cursor := (rfl)
@[simp] theorem raiseError_hasMixed : (raiseError c w s).hasMixed = s.hasMixed := (rfl)
@[simp] theorem raiseError_done : (raiseError c w s).done = s.done := (rfl)
@[simp] theorem raiseError_err : (raiseError c w s).err = true := (rfl)
@[simp] theorem raiseError_cause :
    (raiseError c w s).cause = if s.err then s.cause else causeCode c := (rfl)
@[simp] theorem raiseError_data : (raiseError c w s).data = s.data := (rfl)
@[simp] theorem raiseError_result : (raiseError c w s).result = s.result := (rfl)
@[simp] theorem raiseError_faultLog : (raiseError c w s).faultLog = s.faultLog ++ [⟨c, w⟩] := (rfl)
@[simp] theorem raiseError_pending : (raiseError c w s).pending = s.pending := (rfl)
@[simp] theorem raiseError_replies : (raiseError c w s).replies = s.replies := (rfl)
@[simp] theorem raiseError_owner : (raiseError c w s).owner = s.owner := (rfl)
end RaiseError

section FreshState
variable (s : State)
@[simp] theorem freshState_roll : (freshState s).roll = Rolling.zero := (rfl)
@[simp] theorem freshState_buf : (freshState s).buf = Vector.replicate 64 0 := (rfl)
@[simp] theorem freshState_cursor : (freshState s).cursor = 0 := (rfl)
@[simp] theorem freshState_hasMixed : (freshState s).hasMixed = false := (rfl)
@[simp] theorem freshState_done : (freshState s).done = false := (rfl)
@[simp] theorem freshState_err : (freshState s).err = false := (rfl)
@[simp] theorem freshState_cause : (freshState s).cause = 0 := (rfl)
@[simp] theorem freshState_data : (freshState s).data = s.data := (rfl)
@[simp] theorem freshState_result : (freshState s).result = 0 := (rfl)
@[simp] theorem freshState_faultLog : (freshState s).faultLog = s.faultLog := (rfl)
@[simp] theorem freshState_pending : (freshState s).pending = s.pending := (rfl)
@[simp] theorem freshState_replies : (freshState s).replies = s.replies := (rfl)
@[simp] theorem freshState_owner : (freshState s).owner = s.owner := (rfl)

@[simp] theorem resetState_roll : (resetState s).roll = Rolling.zero := (rfl)
@[simp] theorem resetState_buf : (resetState s).buf = Vector.replicate 64 0 := (rfl)
@[simp] theorem resetState_cursor : (resetState s).cursor = 0 := (rfl)
@[simp] theorem resetState_hasMixed : (resetState s).hasMixed = false := (rfl)
@[simp] theorem resetState_done : (resetState s).done = false := (rfl)
@[simp] theorem resetState_err : (resetState s).err = false := (rfl)
@[simp] theorem resetState_cause : (resetState s).cause = 0 := (rfl)
@[simp] theorem resetState_data : (resetState s).data = 0 := (rfl)
@[simp] theorem resetState_result : (resetState s).result = 0 := (rfl)
@[simp] theorem resetState_faultLog : (resetState s).faultLog = s.faultLog := (rfl)
@[simp] theorem resetState_pending : (resetState s).pending = s.pending := (rfl)
@[simp] theorem resetState_replies : (resetState s).replies = s.replies := (rfl)
@[simp] theorem resetState_owner : (resetState s).owner = s.owner := (rfl)
end FreshState

section DeliverResult
variable (v : Word) (s : State)
@[simp] theorem deliverResult_roll : (deliverResult v s).roll = s.roll := (rfl)
@[simp] theorem deliverResult_buf : (deliverResult v s).buf = s.buf := (rfl)
@[simp] theorem deliverResult_cursor : (deliverResult v s).cursor = s.cursor := (rfl)
@[simp] theorem deliverResult_hasMixed : (deliverResult v s).hasMixed = s.hasMixed := (rfl)
@[simp] theorem deliverResult_done : (deliverResult v s).done = true := (rfl)
@[simp] theorem deliverResult_err : (deliverResult v s).err = s.err := (rfl)
@[simp] theorem deliverResult_cause : (deliverResult v s).cause = s.cause := (rfl)
@[simp] theorem deliverResult_data : (deliverResult v s).data = s.data := (rfl)
@[simp] theorem deliverResult_result : (deliverResult v s).result = v := (rfl)
@[simp] theorem deliverResult_faultLog : (deliverResult v s).faultLog = s.faultLog := (rfl)
@[simp] theorem deliverResult_pending : (deliverResult v s).pending = s.pending := (rfl)
@[simp] theorem deliverResult_replies : (deliverResult v s).replies = s.replies := (rfl)
@[simp] theorem deliverResult_owner : (deliverResult v s).owner = s.owner := (rfl)
end DeliverResult

section Reply
variable (r : Reply) (s : State)
@[simp] theorem reply_roll : (reply r s).roll = s.roll := (rfl)
@[simp] theorem reply_buf : (reply r s).buf = s.buf := (rfl)
@[simp] theorem reply_cursor : (reply r s).cursor = s.cursor := (rfl)
@[simp] theorem reply_hasMixed : (reply r s).hasMixed = s.hasMixed := (rfl)
@[simp] theorem reply_done : (reply r s).done = s.done := (rfl)
@[simp] theorem reply_err : (reply r s).err = s.err := (rfl)
@[simp] theorem reply_cause : (reply r s).cause = s.cause := (rfl)
@[simp] theorem reply_data : (reply r s).data = s.data := (rfl)
@[simp] theorem reply_result : (reply r s).result = s.result := (rfl)
@[simp] theorem reply_faultLog : (reply r s).faultLog = s.faultLog := (rfl)
@[simp] theorem reply_pending : (reply r s).pending = s.pending := (rfl)
@[simp] theorem reply_replies : (reply r s).replies = s.replies ++ [r] := (rfl)
@[simp] theorem reply_owner : (reply r s).owner = s.owner := (rfl)
end Reply

section Datapath
variable (cfg : Config) (C : List Byte) (s : State)
@[simp] theorem mixBuffer_roll : (mixBuffer cfg s).roll = blockMix cfg s.roll s.buf.toList := (rfl)
@[simp] theorem mixBuffer_buf : (mixBuffer cfg s).buf = s.buf := (rfl)
@[simp] theorem mixBuffer_cursor : (mixBuffer cfg s).cursor = s.cursor := (rfl)
@[simp] theorem mixBuffer_hasMixed : (mixBuffer cfg s).hasMixed = s.hasMixed := (rfl)
@[simp] theorem copyRest_roll : (copyRest C s).roll = s.roll := (rfl)
@[simp] theorem copyRest_buf : (copyRest C s).buf = storeBytes s.buf 0 C := (rfl)
@[simp] theorem copyRest_cursor : (copyRest C s).cursor = BitVec.ofNat 7 C.length := (rfl)
@[simp] theorem copyRest_hasMixed : (copyRest C s).hasMixed = s.hasMixed := (rfl)

@[simp] theorem initIfFirst_hasMixed : (initIfFirst cfg s).hasMixed = true := by
  unfold initIfFirst; split <;> simp_all

@[simp] theorem initIfFirst_buf : (initIfFirst cfg s).buf = s.buf := by
  unfold initIfFirst; split <;> rfl

theorem initIfFirst_of_mixed (h : s.hasMixed = true) : initIfFirst cfg s = s := by
  simp [initIfFirst, h]
end Datapath

end Sys2Proof.Machine
end

