-- ==== Sys2Proof/Laws/Buffer.lean ====
section
/-!
SUPPORT. What a byte write and a run of byte writes do to BUF, byte by byte.
-/

namespace Sys2Proof.Machine

theorem buffer_length (b : Buffer) : b.toList.length = 64 := by simp

/-- Two buffers with the same 64 bytes are the same buffer. -/
theorem buffer_ext {a b : Buffer} (h : ∀ j < 64, byteAt a.toList j = byteAt b.toList j) : a = b := by
  apply Vector.ext
  intro i hi
  have := h i hi
  simpa [byteAt, List.getD_eq_getElem?_getD, hi] using this

@[simp] theorem dataChunk_length (n : Nat) (data : Word) : (dataChunk n data).length = n := by simp [dataChunk]

theorem byteAt_dataChunk (n : Nat) (data : Word) (k : Nat) (h : k < n) :
    byteAt (dataChunk n data) k = data.extractLsb' (8 * k) 8 := by
  simp [byteAt, dataChunk, List.getD_eq_getElem?_getD, h]

/-- R91's rotation, byte by byte. -/
theorem byteAt_rotateBuffer (buf : Buffer) (r j : Nat) (h : j < 64) :
    byteAt (rotateBuffer buf r) j = byteAt buf.toList ((j + r) % 64) := by
  simp [rotateBuffer, byteAt, List.getD_eq_getElem?_getD, h]

/-- A fetch reads only the bytes it names (R39). -/
theorem fetchLE_congr (S T : List Byte) (off n : Nat) (h : ∀ i < n, byteAt S (off + i) = byteAt T (off + i)) :
    fetchLE S off n = fetchLE T off n := by
  induction n with
  | zero => rfl
  | succ n ih => rw [fetchLE, fetchLE, ih (fun i hi => h i (by omega)), h n (by omega)]

theorem byteAt_replicate_zero (n j : Nat) : byteAt (List.replicate n (0 : Byte)) j = 0 := by
  simp only [byteAt, List.getD_eq_getElem?_getD, List.getElem?_replicate]
  split <;> rfl

theorem byteAt_append (A B : List Byte) (j : Nat) :
    byteAt (A ++ B) j = if j < A.length then byteAt A j else byteAt B (j - A.length) := by
  simp only [byteAt, List.getD_eq_getElem?_getD, List.getElem?_append]
  split <;> rfl

theorem byteAt_take (A : List Byte) (n j : Nat) (h : j < n) : byteAt (A.take n) j = byteAt A j := by
  simp [byteAt, List.getD_eq_getElem?_getD, h]

theorem byteAt_drop (A : List Byte) (n j : Nat) : byteAt (A.drop n) j = byteAt A (n + j) := by
  simp [byteAt, List.getD_eq_getElem?_getD]

/-- Lists of bytes of one length with the same bytes are equal. -/
theorem bytes_ext {A B : List Byte} (hl : A.length = B.length)
    (h : ∀ j < A.length, byteAt A j = byteAt B j) : A = B := by
  apply List.ext_getElem hl
  intro i h1 h2
  have := h i h1
  simpa [byteAt, List.getD_eq_getElem?_getD, h1, h2] using this

theorem byteAt_memWrite (b : Buffer) (off j : Nat) (x : Byte) (hj : j < 64) :
    byteAt (memWrite b off x).toList j = if j = off then x else byteAt b.toList j := by
  simp only [byteAt, memWrite, List.getD_eq_getElem?_getD, Vector.toList_setIfInBounds, List.getElem?_set]
  by_cases h : off = j
  · subst h; simp [hj]
  · simp [h, Ne.symm h]

/-- The bytes of BUF after a run of writes that stays in BUF: the written ones, and every other as before. -/
theorem byteAt_storeBytes (C : List Byte) : ∀ (b : Buffer) (off j : Nat), off + C.length ≤ 64 → j < 64 →
    byteAt (storeBytes b off C).toList j =
      if off ≤ j ∧ j < off + C.length then byteAt C (j - off) else byteAt b.toList j := by
  induction C with
  | nil => intro b off j _ _; rw [if_neg (by simp), storeBytes]
  | cons x xs ih =>
    intro b off j hoff hj
    simp only [List.length_cons] at hoff
    rw [storeBytes, ih _ _ _ (by omega) hj, byteAt_memWrite _ _ _ _ hj]
    simp only [List.length_cons]
    rcases Nat.lt_trichotomy j off with h | h | h
    · rw [if_neg (by omega), if_neg (by omega), if_neg (by omega)]
    · subst h; rw [if_neg (by omega), if_pos rfl, if_pos (by omega)]; simp [byteAt]
    · by_cases h2 : j < off + (xs.length + 1)
      · rw [if_pos (by omega), if_pos (by omega)]
        obtain ⟨k, rfl⟩ : ∃ k, j = off + 1 + k := ⟨j - (off + 1), by omega⟩
        rw [show off + 1 + k - (off + 1) = k by omega, show off + 1 + k - off = k + 1 by omega]
        simp [byteAt]
      · rw [if_neg (by omega), if_neg (by omega), if_neg (by omega)]

theorem storeBytes_append (C D : List Byte) : ∀ (b : Buffer) (off : Nat),
    storeBytes b off (C ++ D) = storeBytes (storeBytes b off C) (off + C.length) D := by
  induction C with
  | nil => intro b off; rfl
  | cons x xs ih =>
    intro b off
    simp only [List.cons_append, storeBytes, ih, List.length_cons]
    congr 1; omega

/-- A write of exactly 64 bytes makes BUF those bytes. -/
theorem storeBytes_full (b : Buffer) (C : List Byte) (h : C.length = 64) : (storeBytes b 0 C).toList = C := by
  apply bytes_ext (by simp [h])
  intro j hj
  have hj : j < 64 := by simpa using hj
  rw [byteAt_storeBytes C b 0 j (by omega) hj, if_pos (by omega), Nat.sub_zero]

/-- A write that ends at the end of BUF completes the first `off` bytes to a 64-byte block. -/
theorem storeBytes_toEnd (b : Buffer) (off : Nat) (C : List Byte) (h : off + C.length = 64) :
    (storeBytes b off C).toList = b.toList.take off ++ C := by
  apply bytes_ext (by simp; omega)
  intro j hj
  have hj : j < 64 := by simpa using hj
  rw [byteAt_storeBytes C b off j (by omega) hj, byteAt_append]
  simp only [List.length_take, buffer_length, Nat.min_eq_left (show off ≤ 64 by omega)]
  by_cases hlt : j < off
  · rw [if_neg (by omega), if_pos hlt, byteAt_take _ _ _ hlt]
  · rw [if_pos (by omega), if_neg hlt]

end Sys2Proof.Machine
end

