-- ==== Sys2Proof/Laws/Append.lean ====
section
/-!
SUPPORT. The append step (R99) byte by byte: a chunk is appended as its bytes are, one after another. The two branches
of R99 and everything the append step leaves alone follow.
-/

namespace Sys2Proof.Machine

section Frame
variable (cfg : Config)

/-- Everything the append step leaves alone: it writes the rolling state, BUF, CURSOR and HASMIXED only. -/
def AppendKeeps (s t : State) : Prop :=
  t = { s with roll := t.roll, buf := t.buf, cursor := t.cursor, hasMixed := t.hasMixed }

theorem appendKeeps_of {s t : State}
    (h : t = { s with roll := t.roll, buf := t.buf, cursor := t.cursor, hasMixed := t.hasMixed }) :
    AppendKeeps s t := h

theorem appendKeeps_trans {s t u : State} (h : AppendKeeps s t) (h' : AppendKeeps t u) : AppendKeeps s u := by
  unfold AppendKeeps at *
  rw [h'] ; rw [h]

theorem initIfFirst_keeps (s : State) : AppendKeeps s (initIfFirst cfg s) := by
  unfold initIfFirst AppendKeeps; split <;> rfl

theorem appendTail_keeps (k : Nat) : ∀ (C : List Byte) (s : State), AppendKeeps s (appendTail cfg k C s) := by
  induction k with
  | zero => intro C s; rfl
  | succ k ih =>
    intro C s
    unfold appendTail
    split
    · exact appendKeeps_trans (appendKeeps_of rfl) (ih _ _)
    · rfl

/-- The frame of the append step. -/
theorem appendChunk_keeps (C : List Byte) (s : State) : AppendKeeps s (appendChunk cfg C s) := by
  unfold appendChunk
  dsimp only
  split
  · rfl
  · refine appendKeeps_trans ?_ (appendTail_keeps cfg _ _ _)
    exact appendKeeps_trans (t := initIfFirst cfg _) (appendKeeps_trans (appendKeeps_of rfl) (initIfFirst_keeps cfg _))
      (appendKeeps_of rfl)
end Frame

/-- R99's first branch: the chunk fits. -/
theorem appendChunk_fits (cfg : Config) (C : List Byte) (s : State) (h : C.length ≤ 64 - s.cursor.toNat) :
    appendChunk cfg C s =
      { s with buf := storeBytes s.buf s.cursor.toNat C, cursor := BitVec.ofNat 7 (s.cursor.toNat + C.length) } := by
  simp [appendChunk, h]

theorem cursor_toNat_ofNat {n : Nat} (h : n ≤ 64) : (BitVec.ofNat 7 n).toNat = n := by
  simp; omega

/-- The append step does not look at CURSOR once the block is full. -/
theorem appendTail_cursor (cfg : Config) (k : Nat) : ∀ (C : List Byte) (s : State) (c : BitVec 7),
    appendTail cfg k C { s with cursor := c } = appendTail cfg k C s := by
  induction k with
  | zero => intro C s c; rfl
  | succ k ih =>
    intro C s c
    unfold appendTail
    split
    · exact ih _ (mixBuffer cfg { s with buf := storeBytes s.buf 0 (C.take 64) }) c
    · rfl

theorem initIfFirst_cursor (cfg : Config) (s : State) (c : BitVec 7) :
    initIfFirst cfg { s with cursor := c } = { initIfFirst cfg s with cursor := c } := by
  unfold initIfFirst; cases h : s.hasMixed <;> simp [h]

/-- The bound of R99's loop does not matter once it covers the chunk. -/
theorem appendTail_fuel (cfg : Config) (k : Nat) : ∀ (k' : Nat) (C : List Byte) (s : State),
    C.length ≤ 64 * (k + 1) → C.length ≤ 64 * (k' + 1) → appendTail cfg k C s = appendTail cfg k' C s := by
  induction k with
  | zero =>
    intro k' C s h _
    cases k' with
    | zero => rfl
    | succ k' => simp only [appendTail]; rw [if_neg (by omega)]
  | succ k ih =>
    intro k' C s h h'
    cases k' with
    | zero => simp only [appendTail]; rw [if_neg (by omega)]
    | succ k' =>
      simp only [appendTail]
      split
      · apply ih <;> simp only [List.length_drop] <;> omega
      · rfl

/-- R99's second branch, on the filled buffer. -/
theorem appendChunk_spills (cfg : Config) (C : List Byte) (s : State) (h : ¬C.length ≤ 64 - s.cursor.toNat) :
    appendChunk cfg C s = appendTail cfg C.length (C.drop (64 - s.cursor.toNat))
      (mixBuffer cfg (initIfFirst cfg
        { s with buf := storeBytes s.buf s.cursor.toNat (C.take (64 - s.cursor.toNat)) })) := by
  simp [appendChunk, h]

/-- One byte into a buffer with room. -/
theorem appendChunk_byte_room (cfg : Config) (b : Byte) (s : State) (h : s.cursor.toNat < 64) :
    appendChunk cfg [b] s =
      { s with buf := memWrite s.buf s.cursor.toNat b, cursor := BitVec.ofNat 7 (s.cursor.toNat + 1) } := by
  rw [appendChunk_fits _ _ _ (by simp; omega)]; rfl

/-- One byte into a full buffer: the block is mixed, and the byte starts the next one (R100). -/
theorem appendChunk_byte_full (cfg : Config) (b : Byte) (s : State) (h : s.cursor.toNat = 64) :
    appendChunk cfg [b] s = copyRest [b] (mixBuffer cfg (initIfFirst cfg s)) := by
  rw [appendChunk_spills _ _ _ (by simp [h])]
  simp [h, appendTail, storeBytes]

/-- Bytes that fit, one after another, are the chunk they make. -/
theorem foldl_append_fits (cfg : Config) (C : List Byte) : ∀ s : State, s.cursor.toNat + C.length ≤ 64 →
    C.foldl (fun t b => appendChunk cfg [b] t) s =
      { s with buf := storeBytes s.buf s.cursor.toNat C, cursor := BitVec.ofNat 7 (s.cursor.toNat + C.length) } := by
  induction C with
  | nil => intro s _; simp [storeBytes]
  | cons b C ih =>
    intro s h
    simp only [List.length_cons] at h
    have hc : (BitVec.ofNat 7 (s.cursor.toNat + 1)).toNat = s.cursor.toNat + 1 := cursor_toNat_ofNat (by omega)
    rw [List.foldl_cons, appendChunk_byte_room _ _ _ (by omega), ih _ (by rw [hc]; omega)]
    simp only [hc, storeBytes, List.length_cons]
    congr 2; omega

/-- From a full buffer, bytes one after another are R99's loop and last copy. -/
theorem foldl_append_full (cfg : Config) (n : Nat) : ∀ (C : List Byte) (s : State), C.length ≤ n → 1 ≤ C.length →
    s.cursor.toNat = 64 →
    C.foldl (fun t b => appendChunk cfg [b] t) s =
      appendTail cfg C.length C (mixBuffer cfg (initIfFirst cfg s)) := by
  induction n with
  | zero => intro C s h h1; omega
  | succ n ih =>
    intro C s hn h1 hs
    have start : ∀ D : List Byte, 1 ≤ D.length → D.length ≤ 64 →
        D.foldl (fun t b => appendChunk cfg [b] t) s = copyRest D (mixBuffer cfg (initIfFirst cfg s)) := by
      intro D hD1 hD2
      cases D with
      | nil => simp at hD1
      | cons b D =>
        simp only [List.length_cons] at hD2
        rw [List.foldl_cons, appendChunk_byte_full _ _ _ hs,
          foldl_append_fits _ _ _ (by simp; omega)]
        simp [copyRest, storeBytes, Nat.add_comm]
    by_cases hC : C.length ≤ 64
    · rw [start C h1 hC]
      obtain ⟨k, hk⟩ : ∃ k, C.length = k + 1 := ⟨C.length - 1, by omega⟩
      rw [hk, appendTail, if_neg (by omega)]
    · have hsplit : C = C.take 64 ++ C.drop 64 := (List.take_append_drop 64 C).symm
      have hT : (C.take 64).length = 64 := by simp; omega
      have hD : (C.drop 64).length = C.length - 64 := by simp
      have hlhs : C.foldl (fun t b => appendChunk cfg [b] t) s =
          (C.drop 64).foldl (fun t b => appendChunk cfg [b] t)
            (copyRest (C.take 64) (mixBuffer cfg (initIfFirst cfg s))) := by
        conv_lhs => rw [hsplit, List.foldl_append, start _ (by omega) (by omega)]
      rw [hlhs, ih _ _ (by omega) (by omega) (by simp only [copyRest_cursor, hT]; decide)]
      rw [initIfFirst_of_mixed _ _ (by simp)]
      obtain ⟨k, hk⟩ : ∃ k, C.length = k + 1 := ⟨C.length - 1, by omega⟩
      rw [hk, appendTail, if_pos (by omega), appendTail_fuel cfg (C.drop 64).length k _ _ (by omega) (by omega)]
      exact appendTail_cursor cfg k _
        (mixBuffer cfg { mixBuffer cfg (initIfFirst cfg s) with
          buf := storeBytes (mixBuffer cfg (initIfFirst cfg s)).buf 0 (C.take 64) }) _

/-- R99 byte by byte: from CURSOR in its range, appending a chunk is appending its bytes in order. -/
theorem appendChunk_eq_foldl (cfg : Config) (C : List Byte) (s : State) (h : s.cursor.toNat ≤ 64) :
    appendChunk cfg C s = C.foldl (fun t b => appendChunk cfg [b] t) s := by
  by_cases hf : C.length ≤ 64 - s.cursor.toNat
  · rw [appendChunk_fits _ _ _ hf, foldl_append_fits _ _ _ (by omega)]
  · have hsplit : C = C.take (64 - s.cursor.toNat) ++ C.drop (64 - s.cursor.toNat) :=
      (List.take_append_drop _ C).symm
    have hT : (C.take (64 - s.cursor.toNat)).length = 64 - s.cursor.toNat := by simp; omega
    have hD : (C.drop (64 - s.cursor.toNat)).length = C.length - (64 - s.cursor.toNat) := by simp
    rw [appendChunk_spills _ _ _ hf]
    have hT' : s.cursor.toNat + (C.take (64 - s.cursor.toNat)).length = 64 := by omega
    have hfold : C.foldl (fun t b => appendChunk cfg [b] t) s =
        (C.drop (64 - s.cursor.toNat)).foldl (fun t b => appendChunk cfg [b] t)
          { s with buf := storeBytes s.buf s.cursor.toNat (C.take (64 - s.cursor.toNat)), cursor := 64 } := by
      conv_lhs => rw [hsplit, List.foldl_append]
      rw [foldl_append_fits cfg (C.take (64 - s.cursor.toNat)) s (by omega), hT']
      rfl
    rw [hfold, foldl_append_full cfg _ _ _ (Nat.le_refl _) (by omega) rfl]
    rw [initIfFirst_cursor cfg { s with buf := storeBytes s.buf s.cursor.toNat (C.take (64 - s.cursor.toNat)) } 64]
    rw [appendTail_fuel cfg C.length (C.drop (64 - s.cursor.toNat)).length _ _ (by omega) (by omega)]
    exact (appendTail_cursor cfg _ _ (mixBuffer cfg (initIfFirst cfg
      { s with buf := storeBytes s.buf s.cursor.toNat (C.take (64 - s.cursor.toNat)) })) 64).symm

/-- CURSOR stays in its range, and once a block is mixed it is at least 1 (R18, R99). -/
theorem appendTail_cursor_range (cfg : Config) (k : Nat) : ∀ (C : List Byte) (s : State), 1 ≤ C.length →
    C.length ≤ 64 * (k + 1) →
    1 ≤ (appendTail cfg k C s).cursor.toNat ∧ (appendTail cfg k C s).cursor.toNat ≤ 64 ∧
      (appendTail cfg k C s).hasMixed = s.hasMixed := by
  induction k with
  | zero =>
    intro C s h1 h2
    simp only [appendTail, copyRest_cursor, copyRest_hasMixed]
    rw [cursor_toNat_ofNat (by omega)]
    exact ⟨h1, by omega, trivial⟩
  | succ k ih =>
    intro C s h1 h2
    unfold appendTail
    split
    · exact ih _ _ (by simp; omega) (by simp; omega)
    · simp only [copyRest_cursor, copyRest_hasMixed]
      rw [cursor_toNat_ofNat (by omega)]
      exact ⟨h1, by omega, trivial⟩

/-- What the append step does to CURSOR and HASMIXED. -/
theorem appendChunk_cursor_range (cfg : Config) (C : List Byte) (s : State) (h : s.cursor.toNat ≤ 64) :
    (appendChunk cfg C s).cursor.toNat ≤ 64 ∧
      ((appendChunk cfg C s).hasMixed = true → s.hasMixed = true ∧ s.cursor.toNat ≤ (appendChunk cfg C s).cursor.toNat ∨
        1 ≤ (appendChunk cfg C s).cursor.toNat) ∧
      ((appendChunk cfg C s).hasMixed = false → s.hasMixed = false ∧ (appendChunk cfg C s).roll = s.roll) ∧
      (s.hasMixed = true → (appendChunk cfg C s).hasMixed = true) := by
  by_cases hf : C.length ≤ 64 - s.cursor.toNat
  · rw [appendChunk_fits _ _ _ hf]
    dsimp only
    rw [cursor_toNat_ofNat (by omega)]
    exact ⟨by omega, fun h => .inl ⟨h, by omega⟩, fun h => ⟨h, rfl⟩, id⟩
  · rw [appendChunk_spills _ _ _ hf]
    obtain ⟨h1, h2, h3⟩ := appendTail_cursor_range cfg C.length (C.drop (64 - s.cursor.toNat))
      (mixBuffer cfg (initIfFirst cfg
        { s with buf := storeBytes s.buf s.cursor.toNat (C.take (64 - s.cursor.toNat)) })) (by simp; omega) (by simp; omega)
    simp only [mixBuffer_hasMixed, initIfFirst_hasMixed] at h3
    rw [h3]
    exact ⟨h2, fun _ => .inr h1, fun h => by simp at h, fun _ => rfl⟩

end Sys2Proof.Machine
end

