-- ==== Sys2Proof/Laws/PerInstr.lean ====
section
/-!
SUPPORT. A property of every command as written, one lemma per constructor: the fields its word has (30_encoding.md R52,
R53).
-/

namespace Sys2Proof.Laws.WordFields

/-- R52, R53: the word of a command has RSV = 0, the OP code of its row, and LEN = 0 unless it is an APPEND. -/
def Statement (i : Instr) : Prop :=
  rsvField (encode i) = 0 ∧
    match i with
    | .init => opField (encode i) = 0x1 ∧ lenField (encode i) = 0
    | .append len => opField (encode i) = 0x2 ∧ lenField (encode i) = len
    | .finalize => opField (encode i) = 0x3 ∧ lenField (encode i) = 0

theorem init : Statement .init := by unfold Statement; decide

theorem append (len : BitVec 4) : Statement (.append len) := by
  unfold Statement; revert len; decide

theorem finalize : Statement .finalize := by unfold Statement; decide

end Sys2Proof.Laws.WordFields
end

