-- ==== Sys2Proof/Laws/Step.lean ====
section
/-!
SUPPORT. Everything a command, an access and a step can do, said once: one case per way to reach a next state.
-/

namespace Sys2Proof.Machine

/-- The ways a command reaches a next state (R101, R102, R103). -/
inductive ExecCase (cfg : Config) (s : State) : Instr → State → Prop where
  | init : ExecCase cfg s .init (freshState s)
  | appendIllegal (n : BitVec 4) (hn : 8 < n.toNat) :
      ExecCase cfg s (.append n) (raiseError .illegalCmd (encode (.append n)) s)
  | appendDone (n : BitVec 4) (hn : n.toNat ≤ 8) (hd : s.done = true) :
      ExecCase cfg s (.append n) (raiseError .appendAfterFinalize (encode (.append n)) s)
  | append (n : BitVec 4) (hn : n.toNat ≤ 8) (hd : s.done = false) (hc : s.cursor.toNat ≤ 64) :
      ExecCase cfg s (.append n) (appendChunk cfg (dataChunk n.toNat s.data) s)
  | finalizeDone (hd : s.done = true) :
      ExecCase cfg s .finalize (raiseError .finalizeAfterFinalize (encode .finalize) s)
  | finalizeInternal (hd : s.done = false) (hm : s.hasMixed = true)
      (hc : s.cursor.toNat = 0 ∨ 64 < s.cursor.toNat) :
      ExecCase cfg s .finalize (raiseError .internal (encode .finalize) s)
  | finalize (hd : s.done = false) (hc : s.cursor.toNat ≤ 64) (hm : s.hasMixed = true → 1 ≤ s.cursor.toNat) :
      ExecCase cfg s .finalize (deliverResult (arbiter cfg s) s)

/-- `exec` is the meaning under the default configuration. -/
theorem exec_eq_execFor : exec = execFor activeConfig := by
  funext i s
  cases i <;> rfl

/-- `step` is the step under the default configuration. -/
theorem step_eq_stepFor : step = stepFor activeConfig := by
  funext s
  rw [step, stepFor, exec_eq_execFor]

theorem execFor_cases {cfg : Config} {i : Instr} {s t : State} (h : execFor cfg i s = .next t) : ExecCase cfg s i t := by
  cases i with
  | init => cases h; exact .init
  | append n =>
    change appendFor cfg n s = _ at h
    unfold appendFor at h
    split at h
    · cases h; exact .appendIllegal n ‹_›
    · split at h
      · cases h; exact .appendDone n (by omega) ‹_›
      · split at h
        · cases h
        · cases h; exact .append n (by omega) (by simpa using ‹¬s.done = true›) (by omega)
  | finalize =>
    change finalizeFor cfg s = _ at h
    unfold finalizeFor at h
    split at h
    · cases h; exact .finalizeDone ‹_›
    · have hd : s.done = false := by simpa using ‹¬s.done = true›
      split at h
      · rename_i hi
        simp only [trailingLegal, Bool.and_eq_true, Bool.not_eq_true', Bool.and_eq_false_iff,
          decide_eq_false_iff_not] at hi
        cases h; exact .finalizeInternal hd hi.1 (by omega)
      · rename_i hi
        split at h
        · cases h
        · simp only [trailingLegal, Bool.and_eq_true, Bool.not_eq_true', Bool.and_eq_false_iff,
            decide_eq_false_iff_not, not_and] at hi
          cases h; exact .finalize hd (by omega) fun hm => by have := hi hm; omega

theorem exec_cases {i : Instr} {s t : State} (h : exec i s = .next t) : ExecCase activeConfig s i t :=
  execFor_cases (by rwa [exec_eq_execFor] at h)

/-- APPEND within its conditions is the append step (R102). -/
theorem execFor_append {cfg : Config} {s : State} {n : BitVec 4} (hn : n.toNat ≤ 8) (hd : s.done = false)
    (hc : s.cursor.toNat ≤ 64) :
    execFor cfg (.append n) s = .next (appendChunk cfg (dataChunk n.toNat s.data) s) := by
  simp [execFor, appendFor, hd, Nat.not_lt.2 hn, Nat.not_lt.2 hc]

theorem exec_append {s : State} {n : BitVec 4} (hn : n.toNat ≤ 8) (hd : s.done = false) (hc : s.cursor.toNat ≤ 64) :
    exec (.append n) s = .next (appendChunk activeConfig (dataChunk n.toNat s.data) s) := by
  rw [exec_eq_execFor, execFor_append hn hd hc]

/-- FINALIZE within its conditions delivers the arbiter's value (R103, R104). -/
theorem execFor_finalize {cfg : Config} {s : State} (hd : s.done = false) (hc : s.cursor.toNat ≤ 64)
    (hm : s.hasMixed = true → 1 ≤ s.cursor.toNat) :
    execFor cfg .finalize s = .next (deliverResult (arbiter cfg s) s) := by
  cases h : s.hasMixed <;> simp_all [execFor, finalizeFor, trailingLegal, Nat.not_lt.2 hc]

theorem exec_finalize {s : State} (hd : s.done = false) (hc : s.cursor.toNat ≤ 64)
    (hm : s.hasMixed = true → 1 ≤ s.cursor.toNat) :
    exec .finalize s = .next (deliverResult (arbiter activeConfig s) s) := by
  rw [exec_eq_execFor, execFor_finalize hd hc hm]

/-- The commands that raise (R58, R102, R103, R112, R113), under every configuration and so under the default one. -/
theorem execFor_append_illegal {cfg : Config} {s : State} {n : BitVec 4} (hn : 8 < n.toNat) :
    execFor cfg (.append n) s = .next (raiseError .illegalCmd (encode (.append n)) s) := by
  simp [execFor, appendFor, hn]

theorem execFor_append_done {cfg : Config} {s : State} {n : BitVec 4} (hn : n.toNat ≤ 8) (hd : s.done = true) :
    execFor cfg (.append n) s = .next (raiseError .appendAfterFinalize (encode (.append n)) s) := by
  simp [execFor, appendFor, Nat.not_lt.2 hn, hd]

theorem execFor_finalize_done {cfg : Config} {s : State} (hd : s.done = true) :
    execFor cfg .finalize s = .next (raiseError .finalizeAfterFinalize (encode .finalize) s) := by
  simp [execFor, finalizeFor, hd]

theorem execFor_finalize_internal {cfg : Config} {s : State} (hd : s.done = false) (hm : s.hasMixed = true)
    (hc : s.cursor.toNat = 0 ∨ 64 < s.cursor.toNat) :
    execFor cfg .finalize s = .next (raiseError .internal (encode .finalize) s) := by
  have ht : trailingLegal s.cursor.toNat = false := by simp [trailingLegal]; omega
  simp [execFor, finalizeFor, hd, hm, ht]

theorem exec_append_illegal {s : State} {n : BitVec 4} (hn : 8 < n.toNat) :
    exec (.append n) s = .next (raiseError .illegalCmd (encode (.append n)) s) := by
  rw [exec_eq_execFor, execFor_append_illegal hn]

theorem exec_append_done {s : State} {n : BitVec 4} (hn : n.toNat ≤ 8) (hd : s.done = true) :
    exec (.append n) s = .next (raiseError .appendAfterFinalize (encode (.append n)) s) := by
  rw [exec_eq_execFor, execFor_append_done hn hd]

theorem exec_finalize_done {s : State} (hd : s.done = true) :
    exec .finalize s = .next (raiseError .finalizeAfterFinalize (encode .finalize) s) := by
  rw [exec_eq_execFor, execFor_finalize_done hd]

theorem exec_finalize_internal {s : State} (hd : s.done = false) (hm : s.hasMixed = true)
    (hc : s.cursor.toNat = 0 ∨ 64 < s.cursor.toNat) :
    exec .finalize s = .next (raiseError .internal (encode .finalize) s) := by
  rw [exec_eq_execFor, execFor_finalize_internal hd hm hc]

/-- The ways an owned, admitted access or another input reaches a next state, with what the next pending input is. -/
inductive StepCase (run : Meaning) (s t : State) : Prop where
  | idle (hp : s.pending = []) (ht : t = s)
  | reset (rest : List Input) (hp : s.pending = .reset :: rest) (hr : resetNext s = true)
      (hn : nextCommand s = none) (ht : t = resetState { s with pending := rest })
  | exec (rest : List Input) (agent : Nat) (i : Instr) (hn : nextCommand s = some i) (hr : resetNext s = false)
      (hw : nextDataWrite s = none) (ho : s.owner = none ∨ s.owner = some agent)
      (ht : run i { s with pending := rest, owner := some agent } = .next t)
  | illegal (rest : List Input) (agent : Nat) (w : CmdWord) (hn : nextCommand s = none) (hr : resetNext s = false)
      (hw : nextDataWrite s = none) (ho : s.owner = none ∨ s.owner = some agent)
      (ht : t = raiseError .illegalCmd w { s with pending := rest, owner := some agent })
  | dataWrite (rest : List Input) (agent : Nat) (v : Word) (hn : nextCommand s = none) (hr : resetNext s = false)
      (hw : nextDataWrite s = some v) (ho : s.owner = none ∨ s.owner = some agent)
      (ht : t = { s with pending := rest, owner := some agent, data := v })
  | quiet (rest : List Input) (agent : Nat) (replies : List Reply) (hn : nextCommand s = none)
      (hr : resetNext s = false) (hw : nextDataWrite s = none) (ho : s.owner = none ∨ s.owner = some agent)
      (ht : t = { s with pending := rest, owner := some agent, replies := replies })

theorem ownedBy_iff (agent : Nat) (s : State) : ownedBy agent s = true ↔ s.owner = none ∨ s.owner = some agent := by
  unfold ownedBy
  cases h : s.owner <;> simp

theorem stepPending_cases {run : Meaning} {s t : State} (h : stepPending run s = .next t) : StepCase run s t := by
  unfold stepPending at h
  cases hp : s.pending with
  | nil => rw [hp] at h; cases h; exact .idle hp rfl
  | cons inp rest =>
    rw [hp] at h
    cases inp with
    | reset => cases h; exact .reset rest hp (by simp [resetNext, hp]) (by simp [nextCommand, hp]) rfl
    | access agent a =>
      have hr : resetNext s = false := by simp [resetNext, hp]
      simp only [performInput, performAccess] at h
      split at h
      · rename_i ho
        have ho : s.owner = none ∨ s.owner = some agent := by simpa [ownedBy_iff] using ho
        cases hq : windowRequest a with
        | none => rw [hq] at h; cases h
        | some q =>
          rw [hq] at h
          cases q with
          | command w =>
            simp only [perform, command] at h
            have hw : nextDataWrite s = none := by simp [nextDataWrite, hp, hq]
            cases hd : decode w with
            | instr i =>
              rw [hd] at h
              exact .exec rest agent i (by simp [nextCommand, hp, hq, hd]) hr hw ho h
            | illegal why =>
              rw [hd] at h; cases h
              exact .illegal rest agent w (by simp [nextCommand, hp, hq, hd]) hr hw ho rfl
          | writeData v =>
            cases h
            exact .dataWrite rest agent v (by simp [nextCommand, hp, hq]) hr (by simp [nextDataWrite, hp, hq]) ho rfl
          | readCmd | readData | readResult | writeResult | readStatus | writeStatus =>
            cases h
            exact .quiet rest agent _ (by simp [nextCommand, hp, hq]) hr (by simp [nextDataWrite, hp, hq]) ho rfl
      · cases h

theorem step_cases {s t : State} (h : step s = .next t) : StepCase exec s t := stepPending_cases h

theorem stepFor_cases {cfg : Config} {s t : State} (h : stepFor cfg s = .next t) : StepCase (execFor cfg) s t :=
  stepPending_cases h

/-- A run takes its steps one at a time. -/
theorem run_succ (M : Host.Core) (n : Nat) {s t : M.State} (h : M.step s = .next t) : M.run (n + 1) s = M.run n t := by
  rw [Host.Core.run, h]

/-- One step on an owned, admitted access is what the access does. -/
theorem stepPending_access {run : Meaning} {s t : State} {agent : Nat} {a : Access} {q : Request} {rest : List Input}
    (hp : s.pending = .access agent a :: rest) (ho : s.owner = none ∨ s.owner = some agent)
    (hq : windowRequest a = some q) (h : perform run q { s with pending := rest, owner := some agent } = .next t) :
    stepPending run s = .next t := by
  have ho' : ownedBy agent { s with pending := rest } = true := (ownedBy_iff _ _).2 ho
  unfold stepPending performInput performAccess
  simp only [hp, ho', hq, if_true]
  exact h

theorem step_access {s t : State} {agent : Nat} {a : Access} {q : Request} {rest : List Input}
    (hp : s.pending = .access agent a :: rest) (ho : s.owner = none ∨ s.owner = some agent)
    (hq : windowRequest a = some q) (h : perform exec q { s with pending := rest, owner := some agent } = .next t) :
    step s = .next t := stepPending_access hp ho hq h

theorem stepFor_access {cfg : Config} {s t : State} {agent : Nat} {a : Access} {q : Request} {rest : List Input}
    (hp : s.pending = .access agent a :: rest) (ho : s.owner = none ∨ s.owner = some agent)
    (hq : windowRequest a = some q)
    (h : perform (execFor cfg) q { s with pending := rest, owner := some agent } = .next t) :
    stepFor cfg s = .next t := stepPending_access hp ho hq h

/-- What a command leaves of the model's own fields and of DATA. -/
theorem execFor_keeps {cfg : Config} {i : Instr} {s t : State} (h : execFor cfg i s = .next t) :
    t.data = s.data ∧ t.pending = s.pending ∧ t.replies = s.replies ∧ t.owner = s.owner := by
  cases execFor_cases h with
  | append n hn hd hc =>
    rw [appendChunk_keeps cfg (dataChunk n.toNat s.data) s]
    exact ⟨rfl, rfl, rfl, rfl⟩
  | _ => exact ⟨rfl, rfl, rfl, rfl⟩

theorem exec_keeps {i : Instr} {s t : State} (h : exec i s = .next t) :
    t.data = s.data ∧ t.pending = s.pending ∧ t.replies = s.replies ∧ t.owner = s.owner :=
  execFor_keeps (by rwa [exec_eq_execFor] at h)

end Sys2Proof.Machine
end

