-- ==== Sys2Proof/Tests/Slice0.lean ====
section
/-!
SUPPORT. The model's own tests. Every expected value is written out from spec/: the encodings of 30_encoding.md R54, the
worked examples of 40 to 43, and the tables of 95_test_vectors.md. The theorems named witness_… show that the hypotheses of
the statement they name can be met together.
-/

set_option Elab.async false

namespace Sys2Proof.Tests
open Sys2Proof.Machine

/-! ## Helpers -/

/-- The first n counting bytes from a start (95, conventions). -/
def counting (start n : Nat) : List Byte := (List.range n).map fun i => BitVec.ofNat 8 (start + i)

/-- A state that holds a short message and nothing else. -/
def shortState (M : List Byte) : State :=
  { State.reset with buf := storeBytes State.reset.buf 0 M, cursor := BitVec.ofNat 7 M.length }

/-- The rolling state after one mix of counting bytes 0..63 (41_block_mixer R77's worked example). -/
def countingRolling : Rolling where
  x := 0xd1dd0dd1ddb0b84d
  y := 0xd989baf02a075e69
  z := 0xde0411f1cb979833
  v0 := 0x4c4844403c383430
  v1 := 0x16da6f06f62562ef
  w0 := 0x9ea5d2929a696cfd
  w1 := 0x827a1730472a83af

/-- The state after 64 + r counting bytes, 1 ≤ r ≤ 64 (R107; 95 P3 for r = 1, 43 R98 for r = 36). -/
def mixedState (r : Nat) : State :=
  { State.reset with
    roll := countingRolling
    buf := storeBytes (storeBytes State.reset.buf 0 (counting 0 64)) 0 (counting 64 r)
    cursor := BitVec.ofNat 7 r
    hasMixed := true }

/-- The state of 95's table 2.8 named FINALIZED: INIT; FINALIZE. -/
def finalizedState : State := { State.reset with done := true, result := 0x9ae16a3b2f90404f }

/-- The next state of an outcome, if it is one. -/
def nextOf (o : Host.Outcome State Fault Refusal) : Option State :=
  match o with
  | .next s => some s
  | .fault _ => none
  | .refused _ => none

/-- STATUS after a CMD write, where it completes (95, table 2.8). -/
def statusAfter (w : CmdWord) (s : State) : Option (BitVec 32) := (nextOf (command exec w s)).map statusWord

/-! ## WellFormed -/

theorem test_wellFormed_refuses_len9 : (Instr.append 9).wellFormed = false := by decide
theorem test_wellFormed_refuses_len15 : (Instr.append 15).wellFormed = false := by decide
theorem test_wellFormed_admits_len8 : (Instr.append 8).wellFormed = true := by decide

/-! ## Decoding, bit by bit from R54 -/

theorem test_decode_init : decode 0b00000000000000000000000000000001 = .instr .init := by decide
theorem test_decode_append5 : decode 0b00000000000000000000000001010010 = .instr (.append 5) := by decide
theorem test_decode_append8 : decode 0b00000000000000000000000010000010 = .instr (.append 8) := by decide
theorem test_decode_finalize : decode 0b00000000000000000000000000000011 = .instr .finalize := by decide
/-- 95, table 2.8: RSV bit 31; OP 4; FINALIZE with LEN 1. -/
theorem test_decode_illegal :
    decode 0x80000001 = .illegal .reservedBits ∧ decode 0x00000004 = .illegal .reservedOp ∧
    decode 0x00000013 = .illegal .lenNotZero := by decide
theorem test_decodeTableWord :
    decodeTableWord 32 1 = some .init ∧ decodeTableWord 32 2 = some (.append 0) ∧
    decodeTableWord 32 3 = some .finalize ∧ decodeTableWord 32 0 = none := by decide

/-! ## Primitives (40_primitives R67 to R73) -/

theorem test_rotr : rotr 0x0123456789abcdef 37 = 0x3c4d5e6f78091a2b ∧ rotr 1 1 = 0x8000000000000000 := by decide
theorem test_shiftMix :
    shiftMix 0x8000000000000000 = 0x8000000000010000 ∧ shiftMix 0xffffffffffffffff = 0xfffffffffffe0000 := by decide
theorem test_fetch :
    fetch64 (counting 0 16) 5 = 0x0c0b0a0908070605 ∧ fetch32 (counting 0 16) 1 = 0x04030201 := by decide
theorem test_combine16 :
    combine16 1 0 constK2 = 0x92a035dcfa240f16 ∧ combine16 0 1 constK2 = 0xdc111975c8f030ae ∧
    combine16 1 2 defaultK1 = 0x146b91ff143fc3fe := by decide +kernel
theorem test_weakHash :
    weakHash 1 2 3 4 5 6 = (0x000000000000000f, 0x0000800000b00006) ∧
    weakHash (-1) (-1) (-1) (-1) (-1) (-1) = (0xfffffffffffffffb, 0xffffe7ffffcffffc) := by decide +kernel

/-! ## The datapath (41 R74, R77; 42; 43 R98) -/

theorem test_initRolling :
    initRolling activeConfig 0x0706050403020100 =
      ⟨0x0858a1be0fa659ff, 0x226bb95b4e64b6d4, 0x134a747f856d0526, 0, 0, 0, 0⟩ := by decide +kernel
theorem test_blockMix :
    blockMix activeConfig (initRolling activeConfig 0x0706050403020100) (counting 0 64) = countingRolling := by
  decide +kernel
/-- 95, tables 2.3 and 2.5: one length of each band. -/
theorem test_shortHash :
    [3, 5, 13, 24, 64].map (fun n => shortHash activeConfig (counting 0 64) n) =
      [0x94a13d22e9eba49a, 0xb4bfa9e87732c149, 0xc1c5cf5c853d3c92, 0x3f3b313dcbd16ec7, 0xf58504bb53decc4b] := by
  decide +kernel
/-- 43 R98 and 95, table 2.4: 65, 100 and 128 counting bytes. -/
theorem test_finalHash :
    [1, 36, 64].map (fun r => arbiter activeConfig (mixedState r)) =
      [0xc6a3282c3e793dbe, 0x3cff0f886d8d6195, 0x1c484c95f0ea5dd3] := by decide +kernel
/-- 95, table 2.5: two mixes, 129 counting bytes. -/
theorem test_reference : referenceHash64 activeConfig (counting 0 129) = 0xce8ba3741121083e := by decide +kernel

/-! ## Commands (95, tables 2.6 and 2.8) -/

/-- 95 P2, line 3: "abc" from DATA. -/
theorem test_append_abc :
    (nextOf (exec (.append 3) { State.reset with data := 0x636261 })).map
      (fun t => (statusWord t, t.buf.toList.take 4)) = some (0x00000300, [0x61, 0x62, 0x63, 0x00]) := by decide +kernel
/-- 95, table 2.6, last but one row: 124 counting bytes, then 8 that cross the block. -/
theorem test_append_crosses :
    (nextOf (exec (.append 8) { mixedState 60 with data := 0x0706050403020100 })).map
      (fun t => (statusWord t, t.buf.toList.take 8, t.buf.toList.drop 56)) =
      some (0x00000402, [4, 5, 6, 7, 0x44, 0x45, 0x46, 0x47], [0x78, 0x79, 0x7a, 0x7b, 0, 1, 2, 3]) := by decide +kernel
/-- 95 P3, line 19: the first mix when byte 65 arrives. -/
theorem test_append_first_mix :
    (nextOf (exec (.append 1) { shortState (counting 0 64) with data := 0x40 })).map
      (fun t => (statusWord t, t.roll, t.buf.toList.take 2)) =
      some (0x00000102, countingRolling, [0x40, 0x01]) := by decide +kernel
/-- 95 P2, line 4. -/
theorem test_finalize_abc :
    (nextOf (exec .finalize (shortState [0x61, 0x62, 0x63]))).map (fun t => (statusWord t, t.result)) =
      some (0x00000301, 0x24a5b3a074e7f369) := by decide +kernel
/-- 95 P3, line 20: the rolling state is not written back. -/
theorem test_finalize_long :
    (nextOf (exec .finalize (mixedState 1))).map (fun t => (statusWord t, t.result, t.roll)) =
      some (0x00000103, 0xc6a3282c3e793dbe, countingRolling) := by decide +kernel
theorem test_init_keeps_data :
    (nextOf (exec .init { mixedState 5 with data := 7, err := true, cause := 3 })).map
      (fun t => (statusWord t, t.data, t.roll)) = some (0, 7, Rolling.zero) := by decide +kernel
/-- 95, table 2.8, the rows that raise. -/
theorem test_status_after_errors :
    statusAfter 0x00000000 State.reset = some 0x00000034 ∧ statusAfter 0x00000102 State.reset = some 0x00000034 ∧
    statusAfter 0x00000012 finalizedState = some 0x00000015 ∧ statusAfter 0x00000002 finalizedState = some 0x00000015 ∧
    statusAfter 0x00000003 finalizedState = some 0x00000025 ∧ statusAfter 0x00000092 finalizedState = some 0x00000035 ∧
    statusAfter 0x00000003 { finalizedState with err := true, cause := 1 } = some 0x00000015 := by decide +kernel
/-- 95 P6, line 4: an illegal word in the middle of a message. -/
theorem test_illegal_word_keeps_message :
    statusAfter 0x00000000 (shortState [0x61, 0x62, 0x63]) = some 0x00000334 := by decide +kernel

/-! ## The step and the window -/

theorem test_step_runs_first_command :
    (nextOf (step (State.reset.withFetchWord 32 3))).map (fun t => (t.result, t.pending)) =
      some (0x9ae16a3b2f90404f, []) := by decide +kernel
theorem test_status_read :
    (nextOf (performAccess exec 0 (.read 32 0x18) (mixedState 1))).map (fun t => t.replies) =
      some [.word32 0x00000102] := by decide +kernel
theorem test_bad_accesses :
    [Access.read 32 0x08, .read 64 0x04, .write 64 0x00 1, .read 8 0x18, .read 32 0x20].map windowRequest =
      [none, none, none, none, none] := by decide
theorem test_host_notation :
    hostAccess (.append 8) = .write 32 0x00 0x00000082 ∧ chunksOf8 9 (counting 0 9) = [counting 0 8, counting 8 1] ∧
    packBytes [0x61, 0x62, 0x63] = 0x636261 := by decide
/-- Two instances at windows 0x40 and 0x60: the second is the one an access at 0x78 reaches. -/
theorem test_system_routes :
    (match systemAccess exec 0 (.read 32 0x78) ⟨[⟨0x40, State.reset⟩, ⟨0x60, finalizedState⟩]⟩ with
      | .next sys => sys.slots.map fun p => p.block.replies
      | _ => []) = [[], [.word32 0x00000001]] := by decide +kernel

/-! ## Witnesses -/

theorem witness_IllegalWordsRaiseIllegalCmd : ∃ why, decode 0x00000092 = .illegal why := ⟨.lenTooLong, by decide⟩

theorem witness_DecodeAndEncodeAgree :
    (Instr.append 8).wellFormed = true ∧ decode 0x00000082 = .instr (.append 8) := by decide

theorem witness_StepRunsDecodedCommand :
    ({ State.reset with pending := [.access 7 (.write 32 0x00 0x00000003)] } : State).pending =
      .access 7 (.write 32 0x00 0x00000003) :: [] ∧
    (State.reset.owner = none ∨ State.reset.owner = some 7) ∧
    decode 0x00000003 = .instr .finalize ∧ decode 0x00000000 = .illegal .reservedOp := by decide

theorem witness_StepTakesTheNextInput :
    State.reset.pending = [] ∧ ({ State.reset with pending := [.reset] } : State).pending = .reset :: [] ∧
    decode 0x00000001 = .instr .init := by decide

theorem witness_InitGivesFreshState :
    finalizedState.done = true ∧ exec .init finalizedState = .next (freshState finalizedState) ∧
    (freshState finalizedState).done = false := ⟨by decide, rfl, by decide⟩

/-- At the boundary CURSOR + n = 64. -/
theorem witness_AppendWithinTheBuffer :
    (4#4).toNat ≤ 8 ∧ (mixedState 60).done = false ∧ (mixedState 60).cursor.toNat + (4#4).toNat ≤ 64 := by decide

/-- At the boundary CURSOR + n = 65, before and after the first mix. -/
theorem witness_AppendAcrossTheBlock :
    ((1#4).toNat ≤ 8 ∧ (shortState (counting 0 64)).done = false ∧ (shortState (counting 0 64)).cursor.toNat ≤ 64 ∧
      64 < (shortState (counting 0 64)).cursor.toNat + (1#4).toNat ∧ (shortState (counting 0 64)).hasMixed = false) ∧
    ((5#4).toNat ≤ 8 ∧ (mixedState 60).done = false ∧ (mixedState 60).cursor.toNat ≤ 64 ∧
      64 < (mixedState 60).cursor.toNat + (5#4).toNat ∧ (mixedState 60).hasMixed = true) := by decide

theorem witness_FullBufferMixesBeforeStoring :
    ((mixedState 64).cursor = 64 ∧ 1 ≤ (counting 0 64).length ∧ (counting 0 64).length ≤ 64) ∧
    (shortState (counting 0 60)).cursor.toNat + (counting 0 4).length = 64 := by decide

theorem witness_EmptyAppendChangesNothing : (mixedState 64).done = false ∧ (mixedState 64).cursor.toNat ≤ 64 := by decide

/-- The raising case and the case without a raise. -/
theorem witness_AppendFrame :
    exec (.append 0) finalizedState =
      .next (raiseError .appendAfterFinalize (encode (.append 0)) finalizedState) ∧
    exec (.append 8) (mixedState 60) =
      .next (appendChunk activeConfig (dataChunk (8#4).toNat (mixedState 60).data) (mixedState 60)) :=
  ⟨rfl, exec_append (by decide) (by decide) (by decide)⟩

theorem witness_FinalizeDeliversTheArbiterValue :
    finalizedState.done = true ∧
    ((shortState (counting 0 64)).done = false ∧ (shortState (counting 0 64)).hasMixed = false ∧
      (shortState (counting 0 64)).cursor.toNat ≤ 64) ∧
    ((mixedState 1).done = false ∧ (mixedState 1).hasMixed = true ∧ 1 ≤ (mixedState 1).cursor.toNat ∧
      (mixedState 1).cursor.toNat ≤ 64) ∧
    ((mixedState 64).hasMixed = true ∧ 1 ≤ (mixedState 64).cursor.toNat ∧ (mixedState 64).cursor.toNat ≤ 64) ∧
    (State.reset.done = false ∧ State.reset.hasMixed = false ∧ State.reset.cursor = 0) := by decide

/-- Both ends: trailing length 0 and 65. -/
theorem witness_FinalizerPreconditionRaisesInternal :
    (({ mixedState 1 with cursor := 0 } : State).done = false ∧ ({ mixedState 1 with cursor := 0 } : State).hasMixed = true ∧
      ({ mixedState 1 with cursor := 0 } : State).cursor.toNat = 0) ∧
    64 < ({ mixedState 1 with cursor := 65 } : State).cursor.toNat := by decide

theorem witness_MisuseAfterFinalizeRaises :
    finalizedState.done = true ∧ (0#4).toNat ≤ 8 ∧ (8#4).toNat ≤ 8 ∧ State.reset.done = false ∧
    exec .init State.reset = .next (freshState State.reset) := ⟨by decide, by decide, by decide, by decide, rfl⟩

theorem witness_ErrorsArePrecise :
    command exec 0x00000003 finalizedState = .next (raiseError .finalizeAfterFinalize 0x00000003 finalizedState) ∧
    (raiseError .finalizeAfterFinalize 0x00000003 finalizedState).faultLog ≠ finalizedState.faultLog :=
  ⟨rfl, by decide⟩

theorem witness_DecodeComesBeforeTheDoneCheck :
    decode 0x00000092 = .illegal .lenTooLong ∧ decode 0x00000002 = .instr (.append 0) ∧
    decode 0x00000003 = .instr .finalize ∧ finalizedState.done = true ∧
    command exec 0x00000092 finalizedState = .next (raiseError .illegalCmd 0x00000092 finalizedState) :=
  ⟨by decide, by decide, by decide, by decide, rfl⟩

/-- A pending INIT in a finalized state with an error: a step that clears ERR, HASMIXED, DONE and RESULT. For
OnlyInitAndResetClearErr, OnlyAppendSetsHasMixed, OnlyFinalizeSetsDoneAndResult, OnlyAppendAndInitWriteTheHashState and
FaultLogOnlyGrows. -/
theorem witness_StepClearsFlags :
    (nextOf (step { mixedState 1 with
        done := true, err := true, cause := 1, result := 5, faultLog := [⟨.appendAfterFinalize, 2⟩],
        pending := [.access 0 (.write 32 0x00 0x00000001)] })).map
      (fun t => (t.err, t.hasMixed, t.done, t.result, t.faultLog.length)) = some (false, false, false, 0, 1) := by
  decide +kernel

/-- A pending APPEND that sets HASMIXED, a pending FINALIZE that sets DONE and RESULT, and a pending FINALIZE that raises
while ERR is set. For the same statements. -/
theorem witness_StepSetsFlags :
    (nextOf (step { shortState (counting 0 64) with pending := [.access 0 (.write 32 0x00 0x00000012)] })).map
      (fun t => (t.hasMixed, t.cursor)) = some (true, 1) ∧
    (nextOf (step { State.reset with pending := [.access 0 (.write 32 0x00 0x00000003)] })).map
      (fun t => (t.done, t.result)) = some (true, 0x9ae16a3b2f90404f) ∧
    (nextOf (step { finalizedState with
        err := true, cause := 1, pending := [.access 0 (.write 32 0x00 0x00000003)] })).map
      (fun t => (t.err, t.cause, t.faultLog)) = some (true, 1, [⟨.finalizeAfterFinalize, 0x00000003⟩]) := by
  decide +kernel

/-- A pending DATA write, and a pending reset. -/
theorem witness_DataChangesOnlyByItsWrites :
    (nextOf (step { State.reset with pending := [.access 0 (.write 64 0x08 9)] })).map (fun t => t.data) = some 9 ∧
    (nextOf (step { State.reset with data := 9, pending := [.reset] })).map (fun t => t.data) = some 0 ∧
    exec .init { State.reset with data := 9 } = .next (freshState { State.reset with data := 9 }) :=
  ⟨by decide +kernel, by decide +kernel, rfl⟩

theorem witness_ResetIsInitAndClearsData : exec .init (mixedState 5) = .next (freshState (mixedState 5)) := rfl

theorem witness_ResetTable : exec .init (mixedState 7) = .next (freshState (mixedState 7)) := rfl

/-- A state that meets the invariant with a block mixed and an error flagged. For EveryCommandCompletes. -/
theorem witness_StateInv :
    StateInv { mixedState 1 with err := true, cause := 3, faultLog := [⟨.illegalCmd, 0⟩] } :=
  ⟨by decide, by decide, by decide, fun _ => rfl, by decide, by decide, by decide, by decide⟩

theorem witness_StepKeepsStateInv :
    StateInv { mixedState 1 with err := true, cause := 3, faultLog := [⟨.illegalCmd, 0⟩] } ∧
    step { mixedState 1 with err := true, cause := 3, faultLog := [⟨.illegalCmd, 0⟩] } =
      .next { mixedState 1 with err := true, cause := 3, faultLog := [⟨.illegalCmd, 0⟩] } :=
  ⟨witness_StateInv, rfl⟩

/-- A state that holds 65 counting bytes, one block mixed (R107; 95 P3). For AppendExtendsTheMessage. -/
theorem witness_HoldsMessage : HoldsMessage activeConfig (counting 0 65) (mixedState 1) := by
  unfold HoldsMessage
  simp only [mixedState, if_true]
  exact ⟨by decide, by decide, by decide +kernel, by decide +kernel⟩

/-- A state that holds a short message (R106). For AppendExtendsTheMessage. -/
theorem witness_HoldsShortMessage : HoldsMessage activeConfig [0x61, 0x62, 0x63] (shortState [0x61, 0x62, 0x63]) := by
  unfold HoldsMessage
  simp only [shortState, State.reset, Bool.false_eq_true, if_false]
  exact ⟨by decide, by decide, by decide +kernel, trivial⟩

theorem witness_StepKeepsTheMessageInvariant :
    HoldsMessage activeConfig (counting 0 65) (mixedState 1) ∧ step (mixedState 1) = .next (mixedState 1) :=
  ⟨witness_HoldsMessage, rfl⟩

theorem witness_RotationGivesTheLast64Bytes :
    HoldsMessage activeConfig (counting 0 65) (mixedState 1) ∧ (mixedState 1).hasMixed = true :=
  ⟨witness_HoldsMessage, by decide⟩

theorem witness_FinalizeGivesHash64 :
    HoldsMessage activeConfig (counting 0 65) (mixedState 1) ∧ (mixedState 1).done = false :=
  ⟨witness_HoldsMessage, by decide⟩

/-- A configuration with R81's structure other than the default one: every band a constant. -/
def constantConfig : Config where
  k0 := 1
  k1 := 3
  len0to16 := fun _ _ => constK2
  len17to32 := fun _ _ => 0
  len33to64 := fun _ _ => 0
  k0Odd := by decide
  k1Odd := by decide
  bands := by constructor <;> intros <;> rfl

theorem witness_ArbiterValueIsHash64 :
    HoldsMessage constantConfig [0x61] (shortState [0x61]) := by
  unfold HoldsMessage
  simp only [shortState, State.reset, Bool.false_eq_true, if_false]
  exact ⟨by decide, by decide, by decide +kernel, trivial⟩

theorem witness_EveryConfigurationComputesHash64 :
    (∀ op ∈ [HostOp.wdata 0x636261, .append 3, .cmd 0x92], messageOp op = true) ∧
    (∀ w, HostOp.cmd w ∉ [HostOp.wdata 0x636261, .append 3]) ∧ (State.reset.owner = none ∨ State.reset.owner = some 4) :=
  ⟨by decide, by simp, by decide⟩

theorem witness_ChunkBoundariesDoNotMatter : (mixedState 64).cursor.toNat ≤ 64 := by decide

theorem witness_LegalAppendsThenFinalizeGiveHash64 :
    exec .init finalizedState = .next (freshState finalizedState) ∧
    (∀ d ∈ [((8 : BitVec 4), (7 : Word)), (0, 5)], d.1.toNat ≤ 8) := ⟨rfl, by simp⟩

theorem witness_HostSequenceComputesHash64 :
    (∀ op ∈ [HostOp.wdata 0x636261, .append 3, .rdstat, .cmd 0x92, .append 0], messageOp op = true) ∧
    (∀ w, HostOp.cmd w ∉ [HostOp.wdata 0x636261, .append 3]) ∧
    deliveredBytes 0 [HostOp.wdata 0x636261, .append 3, .rdstat, .cmd 0x92, .append 0] = [0x61, 0x62, 0x63] ∧
    (State.reset.owner = none ∨ State.reset.owner = some 4) := ⟨by decide, by simp, by decide, by decide⟩

theorem witness_HashProgramComputesHash64 :
    (State.reset.owner = none ∨ State.reset.owner = some 4) ∧
    (({ finalizedState with owner := some 4 } : State).owner = none ∨
      ({ finalizedState with owner := some 4 } : State).owner = some 4) := by decide

theorem witness_AppendsExpansionDeliversTheBytes :
    (chunksOf8 9 (counting 0 9))[1]? = some [8] ∧ [8] ∈ chunksOf8 9 (counting 0 9) := by decide

/-- Two states that differ in a byte beyond CURSOR and in the rolling state, before any mix. -/
theorem witness_UnwrittenStateNeverReachesAFingerprint :
    SameMessageState (shortState [0x61])
      { shortState [0x61] with roll := countingRolling, buf := storeBytes (shortState [0x61]).buf 1 [0xff] } ∧
    exec .init (shortState [0x61]) = .next (freshState (shortState [0x61])) :=
  ⟨⟨rfl, by decide, fun _ j hj => by
    have hj : j < 1 := hj
    have : j = 0 := by omega
    subst this; decide⟩, rfl⟩

theorem witness_Fetch32IsTheLowHalfOfFetch64 : 8 + 8 ≤ (counting 0 16).length := by decide

theorem witness_PrimitiveCornerCases : 63 < 64 ∧ (0x00007fffffffffff : Word).toNat < 2 ^ 47 := by decide

theorem witness_DefaultBandsHaveTheDocumentStructure : OddConstant 1 ∧ OddConstant 3 := by decide

/-- Two sequences that agree below 3 and differ at 3. -/
theorem witness_ShortHashReadsOnlyTheMessage :
    3 ≤ 64 ∧ ∀ j < 3, byteAt [1, 2, 3, 4] j = byteAt [1, 2, 3, 5] j := by decide

/-- Owned and unowned, and an access outside the list that differs from a listed one in width alone, or offset alone. -/
theorem witness_ExactlyTheListedAccessesAreAdmitted :
    (State.reset.owner = none ∨ State.reset.owner = some 1) ∧
    (0x00, 64) ∉ [(0x00, 32), (0x08, 64), (0x10, 64), (0x18, 32)] ∧
    (0x04, 32) ∉ [(0x00, 32), (0x08, 64), (0x10, 64), (0x18, 32)] := by decide

theorem witness_AccessSideEffectsAndIdempotency :
    performAccess exec 1 (.read 64 0x10) State.reset =
      .next (reply (.word64 0) { State.reset with owner := some 1 }) ∧
    performAccess exec 1 (.write 64 0x08 5) State.reset = .next { State.reset with owner := some 1, data := 5 } ∧
    (State.reset.owner = none ∨ State.reset.owner = some 1) ∧
    (1 ≤ (1#4).toNat ∧ (8#4).toNat ≤ 8 ∧ (mixedState 64).done = false ∧ (mixedState 64).cursor.toNat ≤ 64) ∧
    exec .finalize finalizedState =
      .next (raiseError .finalizeAfterFinalize (encode .finalize) finalizedState) ∧
    (raiseError .finalizeAfterFinalize (encode .finalize) finalizedState).done = true :=
  ⟨rfl, rfl, by decide, by decide, rfl, by decide⟩

/-- A STATUS read and an ignored STATUS write that complete. -/
theorem witness_StatusFields :
    performAccess exec 1 (.read 32 0x18) State.reset =
      .next (reply (.word32 (statusWord State.reset)) { State.reset with owner := some 1 }) ∧
    performAccess exec 1 (.write 32 0x18 7) State.reset = .next { State.reset with owner := some 1 } := ⟨rfl, rfl⟩

theorem witness_SecondAgentIsRefused :
    ({ State.reset with owner := some 1 } : State).owner = some 1 ∧ (1 : Nat) ≠ 2 ∧
    performAccess exec 1 (.write 32 0x18 0) State.reset = .next { State.reset with owner := some 1 } ∧
    step { State.reset with owner := some 1 } = .next { State.reset with owner := some 1 } :=
  ⟨rfl, by decide, rfl, rfl⟩

/-- Two DATA values that agree in their low 3 bytes. -/
theorem witness_ChunkTakesTheLowBytesOfData :
    ((8#4).toNat ≤ 8 ∧ (mixedState 64).done = false ∧ (mixedState 64).cursor.toNat ≤ 64) ∧ 3 ≤ 8 ∧ (0xff636261 : Word).toNat % 2 ^ (8 * 3) = (0x00636261 : Word).toNat % 2 ^ (8 * 3) := by decide

theorem witness_ModeTransitions :
    (shortState (counting 0 64)).cursor.toNat ≤ 64 ∧
    ((mixedState 1).cursor.toNat ≤ 64 ∧ ((mixedState 1).hasMixed = true → 1 ≤ (mixedState 1).cursor.toNat)) ∧
    (8#4).toNat ≤ 8 ∧ decode 0x00000000 = .illegal .reservedOp := by decide

theorem witness_InstancesShareNothing :
    systemAccess exec 3 (.write 64 0x48 6) ⟨[⟨0x40, State.reset⟩, ⟨0x60, finalizedState⟩]⟩ =
      .next ⟨[⟨0x40, { State.reset with owner := some 3, data := 6 }⟩, ⟨0x60, finalizedState⟩]⟩ := rfl

/-- Under a configuration other than the default one: each command from a state that meets its hypotheses. -/
theorem witness_CommandsUnderEveryConfiguration :
    ((8#4).toNat ≤ 8 ∧ (mixedState 60).done = false ∧ (mixedState 60).cursor.toNat ≤ 64) ∧
    (State.reset.done = false ∧ State.reset.hasMixed = false ∧ State.reset.cursor.toNat ≤ 64) ∧
    ((mixedState 64).done = false ∧ (mixedState 64).hasMixed = true ∧ 1 ≤ (mixedState 64).cursor.toNat ∧
      (mixedState 64).cursor.toNat ≤ 64) ∧ finalizedState.done = true ∧ (0#4).toNat ≤ 8 := by decide

theorem witness_ConfigurationReachesOnlyTheHash :
    execFor constantConfig (.append 8) (mixedState 60) =
      .next (appendChunk constantConfig (dataChunk (8#4).toNat (mixedState 60).data) (mixedState 60)) :=
  execFor_append (by decide) (by decide) (by decide)

theorem witness_EveryConfigurationKeepsTheInvariants :
    StateInv (mixedState 1) ∧ stepFor activeConfig (mixedState 1) = .next (mixedState 1) ∧
    HoldsMessage activeConfig (counting 0 65) (mixedState 1) :=
  ⟨⟨by decide, by decide, by decide, fun _ => rfl, by decide, by decide, by decide, by decide⟩, rfl, witness_HoldsMessage⟩

theorem witness_systemWf : systemWf ⟨[⟨0x40, State.reset⟩, ⟨0x60, State.reset⟩]⟩ = true := by decide

end Sys2Proof.Tests
end

/-! ## The frame of the append step, field by field -/

namespace Sys2Proof.Machine

section AppendChunk
variable (cfg : Config) (C : List Byte) (s : State)
@[simp] theorem appendChunk_done : (appendChunk cfg C s).done = s.done := by rw [appendChunk_keeps cfg C s]
@[simp] theorem appendChunk_err : (appendChunk cfg C s).err = s.err := by rw [appendChunk_keeps cfg C s]
@[simp] theorem appendChunk_cause : (appendChunk cfg C s).cause = s.cause := by rw [appendChunk_keeps cfg C s]
@[simp] theorem appendChunk_data : (appendChunk cfg C s).data = s.data := by rw [appendChunk_keeps cfg C s]
@[simp] theorem appendChunk_result : (appendChunk cfg C s).result = s.result := by rw [appendChunk_keeps cfg C s]
@[simp] theorem appendChunk_faultLog : (appendChunk cfg C s).faultLog = s.faultLog := by rw [appendChunk_keeps cfg C s]
@[simp] theorem appendChunk_pending : (appendChunk cfg C s).pending = s.pending := by rw [appendChunk_keeps cfg C s]
@[simp] theorem appendChunk_replies : (appendChunk cfg C s).replies = s.replies := by rw [appendChunk_keeps cfg C s]
@[simp] theorem appendChunk_owner : (appendChunk cfg C s).owner = s.owner := by rw [appendChunk_keeps cfg C s]
end AppendChunk

end Sys2Proof.Machine

/-! ## The message a state holds, and the append step (44_streaming.md R106 to R109) -/

namespace Sys2Proof.Machine

section RefState
variable (cfg : Config) (M C : List Byte)

theorem fetch64_append_zero (h : 8 ≤ M.length) : fetch64 (M ++ C) 0 = fetch64 M 0 := by
  refine fetchLE_congr _ _ 0 8 fun i hi => ?_
  rw [byteAt_append, if_pos (by omega)]

/-- R108: the blocks of a message do not depend on what follows them. -/
theorem refState_append (h8 : 8 ≤ M.length) (m : Nat) (hm : 64 * m ≤ M.length) :
    refState cfg (M ++ C) m = refState cfg M m := by
  induction m with
  | zero => rw [refState, refState, fetch64_append_zero M C h8]
  | succ m ih =>
    have hblock : ((M ++ C).drop (64 * m)).take 64 = (M.drop (64 * m)).take 64 := by
      rw [List.drop_append_of_le_length (by omega), List.take_append_of_le_length (by simp; omega)]
    rw [refState, refState, ih (by omega), hblock]

theorem mixCount_eq {m r : Nat} (h1 : 1 ≤ r) (h64 : r ≤ 64) : mixCount (64 * m + r) = m := by
  unfold mixCount; omega
end RefState

/-- R107 with the number of mixes `m` and the trailing length `r` named: a message of `64 m + r` bytes, `r` in 1..64. -/
structure MixedMessage (cfg : Config) (M : List Byte) (s : State) (m r : Nat) : Prop where
  mixes : 1 ≤ m
  trailing : 1 ≤ r ∧ r ≤ 64
  length : M.length = 64 * m + r
  cursor : s.cursor.toNat = r
  roll : s.roll = refState cfg M m
  bytes : ∀ j < 64, byteAt s.buf.toList j = if j < r then byteAt M (64 * m + j) else byteAt M (64 * m - 64 + j)

section HoldsMessage
variable {cfg : Config} {M : List Byte} {s t : State}

theorem holdsMessage_iff_of_mixed (hm : s.hasMixed = true) :
    HoldsMessage cfg M s ↔ ∃ m r, MixedMessage cfg M s m r := by
  simp only [HoldsMessage, hm, if_true]
  constructor
  · rintro ⟨hlen, hcursor, hroll, hbytes⟩
    have hdiv : mixCount M.length = (M.length - 1) / 64 := rfl
    exact ⟨_, _, by omega, by omega, by omega, hcursor, hroll, hbytes⟩
  · rintro ⟨m, r, hm, hr, hlen, hcursor, hroll, hbytes⟩
    have hmix : mixCount M.length = m := hlen ▸ mixCount_eq hr.1 hr.2
    have hrest : M.length - 64 * m = r := by omega
    rw [hmix, hrest]
    exact ⟨by omega, hcursor, hroll, hbytes⟩

theorem holdsMessage_iff_of_unmixed (hm : s.hasMixed = false) :
    HoldsMessage cfg M s ↔
      M.length ≤ 64 ∧ s.cursor.toNat = M.length ∧ s.buf.toList.take M.length = M ∧ s.roll = Rolling.zero := by
  simp [HoldsMessage, hm]

/-- The message depends on the four hash registers alone, which DATA, RESULT, the flags and the model's own fields are
not. -/
theorem HoldsMessage.congr (h : HoldsMessage cfg M s) (hroll : t.roll = s.roll) (hbuf : t.buf = s.buf)
    (hcursor : t.cursor = s.cursor) (hmixed : t.hasMixed = s.hasMixed) : HoldsMessage cfg M t := by
  unfold HoldsMessage at *
  rwa [hroll, hbuf, hcursor, hmixed]

/-- R18: CURSOR is in its range. -/
theorem HoldsMessage.cursor_le (h : HoldsMessage cfg M s) : s.cursor.toNat ≤ 64 := by
  cases hm : s.hasMixed with
  | false =>
    obtain ⟨hlen, hcursor, -, -⟩ := (holdsMessage_iff_of_unmixed hm).1 h
    omega
  | true =>
    obtain ⟨m, r, hmsg⟩ := (holdsMessage_iff_of_mixed hm).1 h
    exact hmsg.cursor ▸ hmsg.trailing.2

/-- R90: once a block is mixed, a byte is buffered. -/
theorem HoldsMessage.one_le_cursor (h : HoldsMessage cfg M s) (hm : s.hasMixed = true) : 1 ≤ s.cursor.toNat := by
  obtain ⟨m, r, hmsg⟩ := (holdsMessage_iff_of_mixed hm).1 h
  exact hmsg.cursor ▸ hmsg.trailing.1

/-- R106: the fresh state holds the empty message. -/
theorem holdsMessage_nil_of_fresh (hroll : s.roll = Rolling.zero) (hcursor : s.cursor = 0)
    (hm : s.hasMixed = false) : HoldsMessage cfg [] s :=
  (holdsMessage_iff_of_unmixed hm).2 ⟨by simp, by simp [hcursor], rfl, hroll⟩

/-- Before the first mix the message is the first CURSOR bytes of BUF. -/
theorem HoldsMessage.byteAt_buf_of_unmixed (h : HoldsMessage cfg M s) (hm : s.hasMixed = false) (j : Nat)
    (hj : j < M.length) : byteAt s.buf.toList j = byteAt M j := by
  obtain ⟨-, -, hbuf, -⟩ := (holdsMessage_iff_of_unmixed hm).1 h
  rw [← byteAt_take _ M.length j hj, hbuf]

/-- R107: a byte into a buffer with room extends the message. -/
theorem HoldsMessage.append_byte_room (h : HoldsMessage cfg M s) (b : Byte) (hc : s.cursor.toNat < 64) :
    HoldsMessage cfg (M ++ [b]) (appendChunk cfg [b] s) := by
  have hc' : (BitVec.ofNat 7 (s.cursor.toNat + 1)).toNat = s.cursor.toNat + 1 := cursor_toNat_ofNat (by omega)
  rw [appendChunk_byte_room cfg b s hc]
  cases hm : s.hasMixed with
  | false =>
    obtain ⟨hlen, hcursor, hbuf, hroll⟩ := (holdsMessage_iff_of_unmixed hm).1 h
    refine (holdsMessage_iff_of_unmixed rfl).2
      ⟨by simp; omega, hc'.trans (by simp [hcursor]), ?_, hroll⟩
    refine bytes_ext (by simp; omega) fun j hj => ?_
    simp only [List.length_take, List.length_append, List.length_singleton, buffer_length] at hj
    rw [byteAt_take _ _ _ (by simp; omega), byteAt_memWrite _ _ _ _ (by omega), byteAt_append]
    by_cases hlast : j < M.length
    · rw [if_neg (by omega), if_pos hlast, h.byteAt_buf_of_unmixed hm j hlast]
    · rw [if_pos (by omega), if_neg hlast, show j - M.length = 0 by omega]; rfl
  | true =>
    obtain ⟨m, r, hmsg⟩ := (holdsMessage_iff_of_mixed hm).1 h
    obtain ⟨hmix, hr, hlen, hcursor, hroll, hbytes⟩ := hmsg
    refine (holdsMessage_iff_of_mixed rfl).2
      ⟨m, r + 1, hmix, by omega, by simp; omega, hc'.trans (by rw [hcursor]), ?_, ?_⟩
    · rw [refState_append cfg M [b] (by omega) m (by omega)]; exact hroll
    · intro j hj
      rw [byteAt_memWrite _ _ _ _ hj, hbytes j hj, hcursor]
      rcases Nat.lt_trichotomy j r with hlt | rfl | hgt
      · rw [if_neg (by omega), if_pos hlt, if_pos (by omega), byteAt_append, if_pos (by omega)]
      · rw [if_pos rfl, if_pos (by omega), byteAt_append, if_neg (by omega),
          show 64 * m + j - M.length = 0 by omega]; rfl
      · rw [if_neg (by omega), if_neg (by omega), if_neg (by omega), byteAt_append, if_pos (by omega)]

/-- R100, R107: a full buffer is the last block of the message, before the first mix as after it, and the rolling state
that block is mixed into is that of the blocks before it. -/
theorem HoldsMessage.full_buffer (h : HoldsMessage cfg M s) (hc : s.cursor.toNat = 64) :
    ∃ m, M.length = 64 * m + 64 ∧ s.buf.toList = M.drop (64 * m) ∧ (initIfFirst cfg s).roll = refState cfg M m := by
  cases hm : s.hasMixed with
  | false =>
    obtain ⟨hlen, hcursor, hbuf, hroll⟩ := (holdsMessage_iff_of_unmixed hm).1 h
    have hbuf : s.buf.toList = M := by rwa [List.take_of_length_le (by simp; omega)] at hbuf
    exact ⟨0, by omega, by simpa using hbuf, by simp [initIfFirst, hm, memRead, refState, fetch64, hbuf]⟩
  | true =>
    obtain ⟨m, r, hmsg⟩ := (holdsMessage_iff_of_mixed hm).1 h
    obtain ⟨hmix, hr, hlen, hcursor, hroll, hbytes⟩ := hmsg
    refine ⟨m, by omega, bytes_ext (by simp; omega) fun j hj => ?_, by rw [initIfFirst_of_mixed cfg s hm, hroll]⟩
    have hj : j < 64 := by simpa using hj
    rw [hbytes j hj, if_pos (by omega), byteAt_drop]

/-- R100, R107: a byte into a full buffer extends the message. -/
theorem HoldsMessage.append_byte_full (h : HoldsMessage cfg M s) (b : Byte) (hc : s.cursor.toNat = 64) :
    HoldsMessage cfg (M ++ [b]) (appendChunk cfg [b] s) := by
  obtain ⟨m, hlen, hbuf, hroll⟩ := h.full_buffer hc
  rw [appendChunk_byte_full cfg b s hc]
  refine (holdsMessage_iff_of_mixed (by simp)).2
    ⟨m + 1, 1, by omega, by omega, by simp; omega, by simp, ?_, ?_⟩
  · rw [refState_append cfg M [b] (by omega) _ (by omega), refState, copyRest_roll, mixBuffer_roll, hroll,
      initIfFirst_buf, hbuf, List.take_of_length_le (by simp; omega)]
  · intro j hj
    rw [copyRest_buf, mixBuffer_buf, initIfFirst_buf, byteAt_storeBytes _ _ _ _ (by simp) hj, hbuf, byteAt_drop,
      byteAt_append, byteAt_append, List.length_singleton]
    by_cases h0 : j = 0
    · subst h0
      rw [if_pos (by omega), if_pos (by omega), if_neg (by omega), show 64 * (m + 1) + 0 - M.length = 0 - 0 by omega]
    · rw [if_neg (by omega), if_neg (by omega), if_pos (by omega)]
      congr 1

/-- R107, R109: bytes appended one after another extend the message by themselves. -/
theorem HoldsMessage.foldl_append (C : List Byte) : ∀ {M : List Byte} {s : State}, HoldsMessage cfg M s →
    HoldsMessage cfg (M ++ C) (C.foldl (fun t b => appendChunk cfg [b] t) s) := by
  induction C with
  | nil => intro M s h; simpa using h
  | cons b C ih =>
    intro M s h
    have hbyte : HoldsMessage cfg (M ++ [b]) (appendChunk cfg [b] s) := by
      rcases Nat.lt_or_eq_of_le h.cursor_le with hc | hc
      · exact h.append_byte_room b hc
      · exact h.append_byte_full b hc
    simpa using ih hbyte

/-- R99, R107: the append step extends the message by its chunk. -/
theorem HoldsMessage.append (h : HoldsMessage cfg M s) (C : List Byte) :
    HoldsMessage cfg (M ++ C) (appendChunk cfg C s) := by
  rw [appendChunk_eq_foldl cfg C s h.cursor_le]
  exact h.foldl_append C
end HoldsMessage

end Sys2Proof.Machine

/-! ## The invariants of a step, under every configuration -/

namespace Sys2Proof.Machine

section KeepsStateInv
variable {cfg : Config} {s t : State}

/-- StateInv speaks of the block's registers and the fault log: the host's inputs, the values read, the owner and DATA
are free. -/
theorem StateInv.update (h : StateInv s) (pending : List Input) (replies : List Reply) (owner : Option Nat)
    (data : Word) : StateInv { s with pending := pending, replies := replies, owner := owner, data := data } := by
  obtain ⟨hcursor, htrailing, hroll, hresult, hset, hrange, hlogged, hinternal⟩ := h
  exact ⟨hcursor, htrailing, hroll, hresult, hset, hrange, hlogged, hinternal⟩

/-- R101: INIT keeps the invariant; of the state before it, only the fault log is left. -/
theorem StateInv.fresh (h : StateInv s) : StateInv (freshState s) where
  cursorRange := by simp
  trailing := by simp
  rollingFresh := by simp
  resultFresh := by simp
  causeSet := by simp
  causeRange := by simp
  errLogged := by simp
  noInternal := h.noInternal

/-- R114: a raise of any cause but INTERNAL keeps the invariant. -/
theorem StateInv.raise (h : StateInv s) {c : Cause} (hc : c ≠ .internal) (w : CmdWord) :
    StateInv (raiseError c w s) where
  cursorRange := h.cursorRange
  trailing := h.trailing
  rollingFresh := h.rollingFresh
  resultFresh := h.resultFresh
  causeSet := by
    have hcode : causeCode c ≠ 0 := by cases c <;> decide
    rw [raiseError_cause]
    split
    · next he => simpa using h.causeSet.1 he
    · simpa using hcode
  causeRange := by
    have hcode : (causeCode c).toNat ≤ 3 := by
      cases c with
      | internal => exact absurd rfl hc
      | _ => decide
    rw [raiseError_cause]
    split
    · exact h.causeRange
    · exact hcode
  errLogged := by simp
  noInternal := by
    intro e he
    rcases List.mem_append.1 he with hold | hnew
    · exact h.noInternal e hold
    · rwa [List.mem_singleton.1 hnew]

/-- A change of the hash state alone keeps the invariant when the new hash state meets its part of it. -/
theorem StateInv.of_appendKeeps (h : StateInv s) (hkeeps : AppendKeeps s t) (hrange : t.cursor.toNat ≤ 64)
    (htrailing : t.hasMixed = true → 1 ≤ t.cursor.toNat) (hroll : t.hasMixed = false → t.roll = Rolling.zero) :
    StateInv t := by
  obtain ⟨-, -, -, hresult, hset, hcause, hlogged, hinternal⟩ := h
  rw [hkeeps]
  exact ⟨hrange, htrailing, hroll, hresult, hset, hcause, hlogged, hinternal⟩

/-- R99: the append step keeps the invariant. -/
theorem StateInv.append (h : StateInv s) (C : List Byte) : StateInv (appendChunk cfg C s) := by
  obtain ⟨hrange, hmixed, hunmixed, -⟩ := appendChunk_cursor_range cfg C s h.cursorRange
  refine h.of_appendKeeps (appendChunk_keeps cfg C s) hrange (fun hm => ?_) fun hm => ?_
  · rcases hmixed hm with ⟨hbefore, hle⟩ | hpos
    · exact (h.trailing hbefore).trans hle
    · exact hpos
  · obtain ⟨hbefore, hroll⟩ := hunmixed hm
    rw [hroll, h.rollingFresh hbefore]

/-- R103: the delivery of a result keeps the invariant. -/
theorem StateInv.deliver (h : StateInv s) (v : Word) : StateInv (deliverResult v s) where
  cursorRange := h.cursorRange
  trailing := h.trailing
  rollingFresh := h.rollingFresh
  resultFresh := by simp
  causeSet := h.causeSet
  causeRange := h.causeRange
  errLogged := h.errLogged
  noInternal := h.noInternal

/-- Every command keeps the state invariant. INTERNAL needs HASMIXED = 1 with CURSOR outside 1..64, which the invariant
excludes. -/
theorem StateInv.after_command (h : StateInv s) {i : Instr} (hexec : execFor cfg i s = .next t) : StateInv t := by
  cases execFor_cases hexec with
  | init => exact h.fresh
  | appendIllegal | appendDone | finalizeDone => exact h.raise (by decide) _
  | append => exact h.append _
  | finalizeInternal hd hm hc =>
    have hpos := h.trailing hm
    have hrange := h.cursorRange
    omega
  | finalize => exact h.deliver _

/-- Every step keeps the state invariant. -/
theorem StateInv.after_step (h : StateInv s) (hstep : stepFor cfg s = .next t) : StateInv t := by
  cases stepFor_cases hstep with
  | idle hp ht => rwa [ht]
  | reset rest hp hr hn ht =>
    rw [ht]
    exact (h.update rest s.replies s.owner s.data).fresh.update rest s.replies s.owner 0
  | exec rest agent i hn hr hw ho ht => exact (h.update rest s.replies (some agent) s.data).after_command ht
  | illegal rest agent w hn hr hw ho ht =>
    rw [ht]
    exact (h.update rest s.replies (some agent) s.data).raise (by decide) w
  | dataWrite rest agent v hn hr hw ho ht => rw [ht]; exact h.update rest s.replies (some agent) v
  | quiet rest agent replies hn hr hw ho ht => rw [ht]; exact h.update rest replies (some agent) s.data
end KeepsStateInv

section KeepsMessage
variable {cfg : Config} {M : List Byte} {s t : State}

theorem messageAfterStep_of_reset (hr : resetNext s = true) : messageAfterStep s M = [] := by
  simp [messageAfterStep, hr]

theorem messageAfterStep_of_command {i : Instr} (hr : resetNext s = false) (hn : nextCommand s = some i) :
    messageAfterStep s M = messageAfter i s M := by
  simp [messageAfterStep, hr, hn]

theorem messageAfterStep_of_no_command (hr : resetNext s = false) (hn : nextCommand s = none) :
    messageAfterStep s M = M := by
  simp [messageAfterStep, hr, hn]

theorem messageAfter_append_of_accepted {n : BitVec 4} (hn : n.toNat ≤ 8) (hd : s.done = false) :
    messageAfter (.append n) s M = M ++ dataChunk n.toNat s.data := by
  simp [messageAfter, hd, hn]

/-- R115: a rejected APPEND does not extend the message. -/
theorem messageAfter_append_of_rejected {n : BitVec 4} (h : s.done = true ∨ 8 < n.toNat) :
    messageAfter (.append n) s M = M := by
  rcases h with h | h <;> simp [messageAfter, h]

/-- Every command leaves the state with R13's message. -/
theorem HoldsMessage.after_command (h : HoldsMessage cfg M s) {i : Instr} (hexec : execFor cfg i s = .next t) :
    HoldsMessage cfg (messageAfter i s M) t := by
  cases execFor_cases hexec with
  | init => exact holdsMessage_nil_of_fresh rfl rfl rfl
  | appendIllegal n hn =>
    rw [messageAfter_append_of_rejected (.inr hn)]
    exact h.congr rfl rfl rfl rfl
  | appendDone n hn hd =>
    rw [messageAfter_append_of_rejected (.inl hd)]
    exact h.congr rfl rfl rfl rfl
  | append n hn hd hc =>
    rw [messageAfter_append_of_accepted hn hd]
    exact h.append _
  | finalizeDone | finalizeInternal | finalize => exact h.congr rfl rfl rfl rfl

/-- Every step leaves the state with R13's message. -/
theorem HoldsMessage.after_step (h : HoldsMessage cfg M s) (hstep : stepFor cfg s = .next t) :
    HoldsMessage cfg (messageAfterStep s M) t := by
  cases stepFor_cases hstep with
  | idle hp ht =>
    rw [messageAfterStep_of_no_command (by simp [resetNext, hp]) (by simp [nextCommand, hp]), ht]
    exact h
  | reset rest hp hr hn ht =>
    rw [messageAfterStep_of_reset hr, ht]
    exact holdsMessage_nil_of_fresh rfl rfl rfl
  | exec rest agent i hn hr hw ho ht =>
    rw [messageAfterStep_of_command hr hn]
    exact HoldsMessage.after_command (s := { s with pending := rest, owner := some agent }) (h.congr rfl rfl rfl rfl) ht
  | illegal rest agent w hn hr hw ho ht | dataWrite rest agent w hn hr hw ho ht
  | quiet rest agent w hn hr hw ho ht =>
    rw [messageAfterStep_of_no_command hr hn, ht]
    exact h.congr rfl rfl rfl rfl
end KeepsMessage

/-- Settles O58: the state invariant and the message invariant, each kept by every case of a step. -/
theorem everyConfigurationKeepsTheInvariants : Obligations.EveryConfigurationKeepsTheInvariants :=
  fun _ _ _ hstep => ⟨fun h => h.after_step hstep, fun _ h => h.after_step hstep⟩

end Sys2Proof.Machine

/-! ## The configuration, its constants and the commands under it -/

namespace Sys2Proof.Machine

/-- The sum of an odd word and an even word is odd: the wrap at 2^64 keeps parity. -/
theorem toNat_add_odd {a e : Word} (ha : a.toNat % 2 = 1) (he : e.toNat % 2 = 0) : (a + e).toNat % 2 = 1 := by
  rw [BitVec.toNat_add]; omega

/-- R89: K2 and an even number. -/
theorem bandMul_odd (len : Nat) : (bandMul len).toNat % 2 = 1 := by
  have heven : (lenWord len * 2).toNat % 2 = 0 := by
    rw [BitVec.toNat_mul, show (2 : Word).toNat = 2 from rfl]; omega
  exact toNat_add_odd (by decide) heven

/-- R93: what the finalizer's multiplier adds to K1 is twice a byte. -/
theorem finalMul_addend (z : Word) : ((z &&& 0xff) <<< 1).toNat = 2 * (z.toNat % 256) := by
  have hbyte : (z &&& 0xff).toNat = z.toNat % 256 := by
    rw [BitVec.toNat_and]
    exact Nat.and_two_pow_sub_one_eq_mod z.toNat 8
  rw [BitVec.toNat_shiftLeft, hbyte, Nat.shiftLeft_eq]
  omega

/-- Settles O45: each multiplier is an odd constant plus an even number. -/
theorem constantsAndMultipliersAreOdd : Obligations.ConstantsAndMultipliersAreOdd := by
  refine ⟨by decide, bandMul_odd, fun cfg z => ?_⟩
  have hadd := finalMul_addend z
  have heven : ((z &&& 0xff) <<< 1).toNat % 2 = 0 := by omega
  exact ⟨cfg.k0Odd, cfg.k1Odd, toNat_add_odd cfg.k1Odd heven, _, rfl, heven, by omega⟩

section Arbiter
variable {cfg : Config} {s : State}

/-- R104: before the first mix the arbiter takes the short hash of BUF. -/
theorem arbiter_of_unmixed (hm : s.hasMixed = false) :
    arbiter cfg s = shortHash cfg s.buf.toList s.cursor.toNat := by
  simp [arbiter, hm]

/-- R104: after it, the finalizer's value. -/
theorem arbiter_of_mixed (hm : s.hasMixed = true) :
    arbiter cfg s = finalHash cfg s.roll (rotateBuffer s.buf s.cursor.toNat) s.cursor.toNat := by
  simp [arbiter, hm]
end Arbiter

/-- Settles O56: the completing and the raising cases of each command, FINALIZE's value by the arbiter's two paths. -/
theorem commandsUnderEveryConfiguration : Obligations.CommandsUnderEveryConfiguration := by
  intro cfg s
  refine ⟨rfl, fun n hn hd hc => execFor_append hn hd hc, fun hd hm hc => ?_, fun hd hm h1 hc => ?_,
    fun hd => ⟨fun n hn => execFor_append_done hn hd, execFor_finalize_done hd⟩⟩
  · rw [execFor_finalize hd hc (by simp [hm]), arbiter_of_unmixed hm]; rfl
  · rw [execFor_finalize hd hc (fun _ => h1), arbiter_of_mixed hm]; rfl

/-- Settles O55: `exec` and `step` are their configured forms at `activeConfig`, and so is the machine built of them. -/
theorem theMachineRunsTheDefaultConfiguration : Obligations.TheMachineRunsTheDefaultConfiguration := by
  refine ⟨fun i s => by rw [exec_eq_execFor], fun s => by rw [step_eq_stepFor], ?_, rfl, rfl, rfl, rfl⟩
  rw [core, coreFor, step_eq_stepFor]

end Sys2Proof.Machine

/-! ## The arbiter's value is Hash64 of the message (44_streaming.md R104, R108) -/

namespace Sys2Proof.Machine

section ShortHash
variable {S T : List Byte} {len : Nat}

theorem fetch64_congr (h : ∀ j < len, byteAt S j = byteAt T j) {off : Nat} (hoff : off + 8 ≤ len) :
    fetch64 S off = fetch64 T off :=
  fetchLE_congr S T off 8 fun i hi => h (off + i) (by omega)

theorem fetch32_congr (h : ∀ j < len, byteAt S j = byteAt T j) {off : Nat} (hoff : off + 4 ≤ len) :
    fetch32 S off = fetch32 T off :=
  fetchLE_congr S T off 4 fun i hi => h (off + i) (by omega)

/-- R80, R81: whatever the configured band functions are, they read the first `len` bytes alone. -/
theorem shortHash_congr (cfg : Config) (hlen : len ≤ 64) (h : ∀ j < len, byteAt S j = byteAt T j) :
    shortHash cfg S len = shortHash cfg T len := by
  unfold shortHash
  split
  · rcases Nat.eq_zero_or_pos len with rfl | hpos
    · rw [cfg.bands.empty, cfg.bands.empty]
    · by_cases h3 : len ≤ 3
      · exact cfg.bands.bytes1to3 S T len hpos h3 (h _ (by omega)) (h _ (by omega)) (h _ (by omega))
      · by_cases h7 : len ≤ 7
        · exact cfg.bands.words4to7 S T len (by omega) h7 (fetch32_congr h (by omega)) (fetch32_congr h (by omega))
        · exact cfg.bands.words8to16 S T len (by omega) ‹_› (fetch64_congr h (by omega))
            (fetch64_congr h (by omega))
  · split
    · refine cfg.bands.words17to32 S T len (by omega) ‹_› fun off hoff => fetch64_congr h ?_
      simp only [List.mem_cons, List.not_mem_nil, or_false] at hoff
      omega
    · refine cfg.bands.words33to64 S T len (by omega) hlen fun off hoff => fetch64_congr h ?_
      simp only [List.mem_cons, List.not_mem_nil, or_false] at hoff
      omega
end ShortHash

section Reference
variable {cfg : Config} {M : List Byte} {s : State}

theorem referenceHash64_of_short (h : M.length ≤ 64) : referenceHash64 cfg M = shortHash cfg M M.length := by
  simp [referenceHash64, h]

theorem referenceHash64_of_long {m r : Nat} (hlen : M.length = 64 * m + r) (hm : 1 ≤ m) (hr : 1 ≤ r ∧ r ≤ 64) :
    referenceHash64 cfg M = finalHash cfg (refState cfg M m) (M.drop (M.length - 64)) r := by
  have hmix : mixCount M.length = m := hlen ▸ mixCount_eq hr.1 hr.2
  have hrest : M.length - 64 * m = r := by omega
  simp only [referenceHash64, hmix, hrest]
  exact if_neg (by omega)

/-- R91, R107: BUF rotated left by the trailing length is the last 64 bytes of the message. -/
theorem MixedMessage.rotateBuffer_eq {m r : Nat} (h : MixedMessage cfg M s m r) :
    rotateBuffer s.buf s.cursor.toNat = M.drop (M.length - 64) := by
  obtain ⟨hmix, hr, hlen, hcursor, -, hbytes⟩ := h
  have hrot : (rotateBuffer s.buf s.cursor.toNat).length = 64 := by simp [rotateBuffer]
  refine bytes_ext (by simp [hrot]; omega) fun j hj => ?_
  rw [hrot] at hj
  rw [byteAt_rotateBuffer _ _ _ hj, hcursor, hbytes _ (Nat.mod_lt _ (by omega)), byteAt_drop]
  by_cases hwrap : j + r < 64
  · rw [Nat.mod_eq_of_lt hwrap, if_neg (by omega)]
    congr 1; omega
  · rw [show (j + r) % 64 = j + r - 64 by omega, if_pos (by omega)]
    congr 1; omega

/-- R104, R108: in a state that holds M the arbiter's value is Hash64 of M. -/
theorem HoldsMessage.arbiter_eq (h : HoldsMessage cfg M s) : arbiter cfg s = referenceHash64 cfg M := by
  cases hm : s.hasMixed with
  | false =>
    obtain ⟨hlen, hcursor, -, -⟩ := (holdsMessage_iff_of_unmixed hm).1 h
    rw [arbiter_of_unmixed hm, referenceHash64_of_short hlen, hcursor]
    exact shortHash_congr cfg hlen (h.byteAt_buf_of_unmixed hm)
  | true =>
    obtain ⟨m, r, hmsg⟩ := (holdsMessage_iff_of_mixed hm).1 h
    rw [arbiter_of_mixed hm, referenceHash64_of_long hmsg.length hmsg.mixes hmsg.trailing, hmsg.rotateBuffer_eq,
      hmsg.cursor, hmsg.roll]

/-- R103, R108: FINALIZE of an unfinished message delivers its Hash64. -/
theorem HoldsMessage.finalize (h : HoldsMessage cfg M s) (hd : s.done = false) :
    execFor cfg .finalize s = .next (deliverResult (referenceHash64 cfg M) s) := by
  rw [execFor_finalize hd h.cursor_le h.one_le_cursor, h.arbiter_eq]
end Reference

end Sys2Proof.Machine

/-! ## A host's sequence from INIT to FINALIZE (30_encoding.md R60, 44_streaming.md R109, R133) -/

namespace Sys2Proof.Machine

theorem decode_encode {i : Instr} (h : i.wellFormed = true) : decode (encode i) = .instr i := by
  cases i with
  | init => decide
  | append len => revert len; decide
  | finalize => decide

/-- R54, R118: a CMD write of a legal command's word performs the command. -/
theorem perform_encode {run : Meaning} {i : Instr} (h : i.wellFormed = true) (s : State) :
    perform run (.command (encode i)) s = run i s := by
  rw [perform, command, decode_encode h]

/-- R58: a CMD write of an illegal word raises. -/
theorem perform_illegal {run : Meaning} {w : CmdWord} {why : IllegalReason} (h : decode w = .illegal why) (s : State) :
    perform run (.command w) s = .next (raiseError .illegalCmd w s) := by
  rw [perform, command, h]

/-- The request of R41's list that a line of a host program makes. -/
def hostRequest : HostOp → Request
  | .wdata v => .writeData v
  | .init => .command (encode .init)
  | .append n => .command (encode (.append n))
  | .finalize => .command (encode .finalize)
  | .rdstat => .readStatus
  | .rdres => .readResult
  | .cmd w => .command w

/-- R60: every line is an access the window admits. -/
theorem windowRequest_hostAccess (op : HostOp) : windowRequest (hostAccess op) = some (hostRequest op) := by
  cases op <;> simp [hostAccess, windowRequest, hostRequest]

/-- The state in which a line of `agent`'s program is performed: the line is taken, and the agent is the owner. -/
def afterIssue (agent : Nat) (ops : List HostOp) (s : State) : State :=
  { s with pending := hostInputs agent ops, owner := some agent }

section Steps
variable {cfg : Config} {agent : Nat} {M : List Byte} {op : HostOp} {rest : List HostOp} {s t : State}

/-- A step on a host line is what the line's request does. -/
theorem stepFor_hostOp (hp : s.pending = hostInputs agent (op :: rest)) (ho : s.owner = none ∨ s.owner = some agent)
    (h : perform (execFor cfg) (hostRequest op) (afterIssue agent rest s) = .next t) : stepFor cfg s = .next t :=
  stepFor_access hp ho (windowRequest_hostAccess op) h

theorem coreFor_run_succ (h : stepFor cfg s = .next t) (k : Nat) :
    (coreFor cfg).run (k + 1) s = (coreFor cfg).run k t :=
  run_succ (coreFor cfg) k h

/-- In the middle of a message: the block is `agent`'s, `ops` are still to be issued, and the block holds the
unfinished message M. -/
structure InMessage (cfg : Config) (agent : Nat) (M : List Byte) (ops : List HostOp) (s : State) : Prop where
  pending : s.pending = hostInputs agent ops
  owner : s.owner = some agent
  done : s.done = false
  holds : HoldsMessage cfg M s

/-- R109: a line between INIT and FINALIZE completes; it extends the message by the bytes it takes from DATA, and only
an illegal word touches ERR or the fault log. -/
theorem InMessage.step (h : InMessage cfg agent M (op :: rest) s) (hop : messageOp op = true) :
    ∃ t, stepFor cfg s = .next t ∧ InMessage cfg agent (M ++ deliveredBytes s.data [op]) rest t ∧
      (∀ ops, deliveredBytes s.data (op :: ops) = deliveredBytes s.data [op] ++ deliveredBytes t.data ops) ∧
      ((∀ w, op ≠ .cmd w) → t.err = s.err ∧ t.faultLog = s.faultLog) := by
  obtain ⟨hpending, howner, hdone, hholds⟩ := h
  have hissued : HoldsMessage cfg M (afterIssue agent rest s) := hholds.congr rfl rfl rfl rfl
  have hsame : HoldsMessage cfg (M ++ []) (afterIssue agent rest s) := by rwa [List.append_nil]
  have hstep : ∀ {t}, perform (execFor cfg) (hostRequest op) (afterIssue agent rest s) = .next t →
    stepFor cfg s = .next t := stepFor_hostOp hpending (.inr howner)
  cases op with
  | wdata v =>
    exact ⟨_, hstep rfl, ⟨rfl, rfl, hdone, hsame.congr rfl rfl rfl rfl⟩, fun ops => rfl, fun _ => ⟨rfl, rfl⟩⟩
  | append n =>
    have hn : n.toNat ≤ 8 := by simpa [messageOp] using hop
    have hexec := execFor_append (cfg := cfg) hn (s := afterIssue agent rest s) hdone hissued.cursor_le
    have hperform := (perform_encode (by simpa [Instr.wellFormed] using hn) (afterIssue agent rest s)).trans hexec
    refine ⟨_, hstep hperform, ⟨by simp [afterIssue], by simp [afterIssue], by simpa [afterIssue] using hdone, ?_⟩,
      fun ops => by simp [deliveredBytes, afterIssue], fun _ => by simp [afterIssue]⟩
    simpa [deliveredBytes, afterIssue] using hissued.append (dataChunk n.toNat s.data)
  | rdstat | rdres =>
    exact ⟨_, hstep rfl, ⟨rfl, rfl, hdone, hsame.congr rfl rfl rfl rfl⟩, fun ops => rfl, fun _ => ⟨rfl, rfl⟩⟩
  | cmd w =>
    cases hw : decode w with
    | instr i => simp [messageOp, hw] at hop
    | illegal why =>
      exact ⟨_, hstep (perform_illegal hw _), ⟨rfl, rfl, hdone, hsame.congr rfl rfl rfl rfl⟩, fun ops => rfl,
        fun hne => absurd rfl (hne w)⟩
  | init | finalize => simp [messageOp] at hop

/-- R109: the lines between INIT and FINALIZE run to their end, one step each, and extend the message by the bytes they
take from DATA. -/
theorem InMessage.run (ops : List HostOp) : ∀ {M : List Byte} {s : State}, InMessage cfg agent M (ops ++ rest) s →
    (∀ op ∈ ops, messageOp op = true) →
    ∃ t : State, (∀ k, (coreFor cfg).run (ops.length + k) s = (coreFor cfg).run k t) ∧
      InMessage cfg agent (M ++ deliveredBytes s.data ops) rest t ∧
      ((∀ w, HostOp.cmd w ∉ ops) → t.err = s.err ∧ t.faultLog = s.faultLog) := by
  induction ops with
  | nil =>
    intro M s h _
    exact ⟨s, fun k => by simp, by simpa [deliveredBytes] using h, fun _ => ⟨rfl, rfl⟩⟩
  | cons op ops ih =>
    intro M s h hops
    obtain ⟨t, hstep, hmid, hbytes, hquiet⟩ := InMessage.step h (hops op (by simp))
    obtain ⟨u, hrun, hend, hrest⟩ := ih hmid fun o ho => hops o (by simp [ho])
    refine ⟨u, fun k => ?_, ?_, fun hno => ?_⟩
    · rw [List.length_cons, Nat.add_right_comm, coreFor_run_succ hstep, hrun]
    · rwa [hbytes, ← List.append_assoc]
    · obtain ⟨herr, hlog⟩ := hquiet fun w hw => hno w (by simp [hw])
      obtain ⟨herr', hlog'⟩ := hrest fun w hw => hno w (by simp [hw])
      exact ⟨herr'.trans herr, hlog'.trans hlog⟩

/-- R101: INIT, from every state, starts the empty message. -/
theorem stepFor_init (hp : s.pending = hostInputs agent (.init :: rest)) (ho : s.owner = none ∨ s.owner = some agent) :
    stepFor cfg s = .next (freshState (afterIssue agent rest s)) :=
  stepFor_hostOp hp ho (perform_encode rfl _)

theorem inMessage_nil_of_fresh : InMessage cfg agent [] rest (freshState (afterIssue agent rest s)) :=
  ⟨rfl, rfl, rfl, holdsMessage_nil_of_fresh rfl rfl rfl⟩

/-- R103, R108: FINALIZE ends the message with its Hash64. -/
theorem InMessage.step_finalize (h : InMessage cfg agent M (.finalize :: rest) s) :
    stepFor cfg s = .next (deliverResult (referenceHash64 cfg M) (afterIssue agent rest s)) := by
  have hissued : HoldsMessage cfg M (afterIssue agent rest s) := h.holds.congr rfl rfl rfl rfl
  refine stepFor_hostOp h.pending (.inr h.owner) ?_
  exact (perform_encode rfl _).trans (hissued.finalize h.done)

/-- R27: a RESULT read returns RESULT. -/
theorem stepFor_rdres (hp : s.pending = hostInputs agent (.rdres :: rest)) (ho : s.owner = none ∨ s.owner = some agent) :
    stepFor cfg s = .next (reply (.word64 s.result) (afterIssue agent rest s)) :=
  stepFor_hostOp hp ho rfl

/-- The end of R133's sequence: FINALIZE, then the RESULT read. -/
theorem InMessage.run_finalize_rdres (h : InMessage cfg agent M [.finalize, .rdres] s) :
    (coreFor cfg).run 2 s = .next (reply (.word64 (referenceHash64 cfg M))
      (afterIssue agent [] (deliverResult (referenceHash64 cfg M) (afterIssue agent [.rdres] s)))) := by
  rw [coreFor_run_succ h.step_finalize, coreFor_run_succ (stepFor_rdres rfl (.inr rfl))]
  rfl
end Steps

/-- Settles O59: INIT starts the empty message, the lines extend it by the bytes they take, FINALIZE delivers its Hash64
and the RESULT read returns it. -/
theorem everyConfigurationComputesHash64 : Obligations.EveryConfigurationComputesHash64 := by
  intro cfg s agent ops hops howner program hash
  have hinit := stepFor_init (cfg := cfg) (s := { s with pending := hostInputs agent program }) rfl howner
  obtain ⟨t, hrun, hend, hquiet⟩ := InMessage.run (cfg := cfg) ops inMessage_nil_of_fresh hops
  have hlength : program.length = ops.length + 2 + 1 := by simp [program]
  have htotal := ((coreFor_run_succ hinit (ops.length + 2)).trans (hrun 2)).trans hend.run_finalize_rdres
  rw [hlength]
  exact ⟨_, htotal, rfl, rfl, rfl, List.getLast?_concat, hquiet⟩

end Sys2Proof.Machine

/-! ## The invariant and the hidden state (10_state.md R16, R18, R19) -/

namespace Sys2Proof.Machine

/-- Settles O27: `step` is the step under the default configuration, and every configuration's step keeps the
invariant. -/
theorem stepKeepsStateInv : Obligations.StepKeepsStateInv := by
  intro s t hinv hstep
  rw [step_eq_stepFor] at hstep
  exact hinv.after_step hstep

section SameMessage
variable {cfg : Config} {s t : State}

theorem SameMessageState.refl (s : State) : SameMessageState s s :=
  ⟨rfl, fun _ => ⟨rfl, rfl⟩, fun _ _ _ => rfl⟩

/-- The states of the relation: after the first mix, one state alone; before it, the rolling state is free and so is BUF
from CURSOR on. -/
theorem sameMessageState_cases (h : SameMessageState s t) :
    t = s ∨ s.hasMixed = false ∧ ∃ roll buf, t = { s with roll := roll, buf := buf } ∧
      ∀ j < s.cursor.toNat, byteAt buf.toList j = byteAt s.buf.toList j := by
  obtain ⟨hrest, hmixed, hunmixed⟩ := h
  rcases Bool.eq_false_or_eq_true s.hasMixed with hm | hm
  · obtain ⟨hroll, hbuf⟩ := hmixed hm
    exact .inl (by rw [hrest, hroll, hbuf])
  · exact .inr ⟨hm, t.roll, t.buf, hrest, hunmixed hm⟩

/-- R114: a raise writes nothing the relation leaves free, and reads nothing of it. -/
theorem SameMessageState.raise (h : SameMessageState s t) (c : Cause) (w : CmdWord) :
    SameMessageState (raiseError c w s) (raiseError c w t) := by
  obtain ⟨hrest, hmixed, hunmixed⟩ := h
  exact ⟨by rw [hrest]; rfl, hmixed, hunmixed⟩

theorem SameMessageState.deliver (h : SameMessageState s t) (v : Word) :
    SameMessageState (deliverResult v s) (deliverResult v t) := by
  obtain ⟨hrest, hmixed, hunmixed⟩ := h
  exact ⟨by rw [hrest]; rfl, hmixed, hunmixed⟩

/-- R101: INIT forgets the hidden state. -/
theorem SameMessageState.fresh_eq (h : SameMessageState s t) : freshState t = freshState s := by
  rw [h.1]; rfl

/-- R80, R104: on the short path the arbiter reads the first CURSOR bytes of BUF alone. -/
theorem SameMessageState.arbiter_eq (h : SameMessageState s t) (hc : s.cursor.toNat ≤ 64) :
    arbiter cfg t = arbiter cfg s := by
  obtain rfl | ⟨hm, roll, buf, rfl, hbuf⟩ := sameMessageState_cases h
  · rfl
  · calc arbiter cfg { s with roll := roll, buf := buf }
        = shortHash cfg buf.toList s.cursor.toNat := arbiter_of_unmixed hm
      _ = shortHash cfg s.buf.toList s.cursor.toNat := shortHash_congr cfg hc hbuf
      _ = arbiter cfg s := (arbiter_of_unmixed hm).symm

/-- Writing the same bytes at `off` into buffers that agree below `off` leaves them agreeing up to the end of the
write. -/
theorem byteAt_storeBytes_congr {a b : Buffer} {off : Nat} (C : List Byte)
    (h : ∀ j < off, byteAt a.toList j = byteAt b.toList j) (hoff : off + C.length ≤ 64) :
    ∀ j < off + C.length, byteAt (storeBytes a off C).toList j = byteAt (storeBytes b off C).toList j := by
  intro j hj
  rw [byteAt_storeBytes C a off j hoff (by omega), byteAt_storeBytes C b off j hoff (by omega)]
  by_cases hold : j < off
  · rw [if_neg (by omega), if_neg (by omega), h j hold]
  · rw [if_pos (by omega), if_pos (by omega)]

/-- R19, R74, R99: an append that fits writes the same bytes after the same message; one that spills first completes
the block, overwriting every stale byte, and InitState then overwrites the rolling state. -/
theorem SameMessageState.append (h : SameMessageState s t) (hc : s.cursor.toNat ≤ 64) (C : List Byte) :
    SameMessageState (appendChunk cfg C s) (appendChunk cfg C t) := by
  obtain rfl | ⟨hm, roll, buf, rfl, hbuf⟩ := sameMessageState_cases h
  · exact .refl _
  · by_cases hfits : C.length ≤ 64 - s.cursor.toNat
    · rw [appendChunk_fits cfg C s hfits, appendChunk_fits cfg C { s with roll := roll, buf := buf } hfits]
      refine ⟨rfl, fun h => by simp [hm] at h, fun _ => ?_⟩
      rw [cursor_toNat_ofNat (by omega)]
      exact byteAt_storeBytes_congr C hbuf (by omega)
    · rw [appendChunk_spills cfg C s hfits, appendChunk_spills cfg C { s with roll := roll, buf := buf } hfits]
      have hblock : storeBytes buf s.cursor.toNat (C.take (64 - s.cursor.toNat)) =
          storeBytes s.buf s.cursor.toNat (C.take (64 - s.cursor.toNat)) := by
        have hlen : (C.take (64 - s.cursor.toNat)).length = 64 - s.cursor.toNat := by simp; omega
        refine buffer_ext fun j hj => ?_
        exact byteAt_storeBytes_congr _ hbuf (by omega) j (by omega)
      simp only [hblock, initIfFirst, hm, Bool.false_eq_true, if_false]
      exact .refl _

/-- Under every configuration, related states run every command alike. -/
theorem SameMessageState.after_command (h : SameMessageState s t) {i : Instr} {s' : State}
    (hexec : execFor cfg i s = .next s') : ∃ t', execFor cfg i t = .next t' ∧ SameMessageState s' t' := by
  have hdone : t.done = s.done := by rw [h.1]
  have hmixed : t.hasMixed = s.hasMixed := by rw [h.1]
  have hcursor : t.cursor = s.cursor := by rw [h.1]
  have hdata : t.data = s.data := by rw [h.1]
  cases execFor_cases hexec with
  | init => exact ⟨_, rfl, h.fresh_eq ▸ .refl _⟩
  | appendIllegal n hn => exact ⟨_, execFor_append_illegal hn, h.raise _ _⟩
  | appendDone n hn hd => exact ⟨_, execFor_append_done hn (hdone ▸ hd), h.raise _ _⟩
  | append n hn hd hc =>
    exact ⟨_, execFor_append hn (hdone ▸ hd) (hcursor ▸ hc), hdata ▸ h.append hc _⟩
  | finalizeDone hd => exact ⟨_, execFor_finalize_done (hdone ▸ hd), h.raise _ _⟩
  | finalizeInternal hd hm hc =>
    exact ⟨_, execFor_finalize_internal (hdone ▸ hd) (hmixed ▸ hm) (hcursor ▸ hc), h.raise _ _⟩
  | finalize hd hc hm =>
    refine ⟨_, execFor_finalize (hdone ▸ hd) (hcursor ▸ hc) (hcursor ▸ hmixed ▸ hm), ?_⟩
    rw [h.arbiter_eq hc]
    exact h.deliver _
end SameMessage

/-- Settles O40: the relation is kept by every command, and it leaves no freedom to RESULT and STATUS. -/
theorem unwrittenStateNeverReachesAFingerprint : Obligations.UnwrittenStateNeverReachesAFingerprint := by
  intro i s t s' hsame hexec
  rw [exec_eq_execFor] at hexec ⊢
  obtain ⟨t', hexec', hsame'⟩ := hsame.after_command hexec
  exact ⟨t', hexec', hsame', by rw [hsame'.1], by rw [hsame'.1]; rfl⟩

end Sys2Proof.Machine

/-! ## Which input writes which register (10_state.md R15, R17, R18, R20, R21, R23, R26, R27) -/

namespace Sys2Proof.Machine

section CommandWrites
variable {cfg : Config} {i : Instr} {s t : State}

/-- R23: a command other than INIT keeps ERR set, and CAUSE with it. -/
theorem execFor_err (h : execFor cfg i s = .next t) (herr : s.err = true) :
    i = .init ∨ t.err = true ∧ t.cause = s.cause := by
  cases execFor_cases h with
  | init => exact .inl rfl
  | appendIllegal | appendDone | append | finalizeDone | finalizeInternal | finalize => exact .inr (by simp [herr])

/-- R20: INIT clears HASMIXED, APPEND can set it, FINALIZE leaves it. -/
theorem execFor_hasMixed (h : execFor cfg i s = .next t) :
    i = .init ∧ t.hasMixed = false ∨ (∃ n, i = .append n) ∧ (s.hasMixed = true → t.hasMixed = true) ∨
      i = .finalize ∧ t.hasMixed = s.hasMixed := by
  cases execFor_cases h with
  | init => exact .inl ⟨rfl, rfl⟩
  | appendIllegal n | appendDone n => exact .inr (.inl ⟨⟨n, rfl⟩, id⟩)
  | append n hn hd hc =>
    obtain ⟨-, -, -, hsticks⟩ := appendChunk_cursor_range cfg (dataChunk n.toNat s.data) s hc
    exact .inr (.inl ⟨⟨n, rfl⟩, hsticks⟩)
  | finalizeDone | finalizeInternal | finalize => exact .inr (.inr ⟨rfl, rfl⟩)

/-- R21, R27: INIT clears DONE and RESULT, a FINALIZE with DONE = 0 can set them, and nothing else writes them. -/
theorem execFor_done_result (h : execFor cfg i s = .next t) :
    i = .init ∧ t.done = false ∧ t.result = 0 ∨ i = .finalize ∧ s.done = false ∧ t.done = true ∨
      t.done = s.done ∧ t.result = s.result := by
  cases execFor_cases h with
  | init => exact .inl ⟨rfl, rfl, rfl⟩
  | finalize hd => exact .inr (.inl ⟨rfl, hd, rfl⟩)
  | append => exact .inr (.inr ⟨by simp, by simp⟩)
  | appendIllegal | appendDone | finalizeDone | finalizeInternal => exact .inr (.inr ⟨rfl, rfl⟩)

/-- R15, R17, R18: FINALIZE leaves the rolling state, BUF and CURSOR. -/
theorem execFor_hashState (h : execFor cfg i s = .next t) :
    (∃ n, i = .append n) ∨ i = .init ∨ t.roll = s.roll ∧ t.buf = s.buf ∧ t.cursor = s.cursor := by
  cases execFor_cases h with
  | init => exact .inr (.inl rfl)
  | appendIllegal n | appendDone n | append n => exact .inl ⟨n, rfl⟩
  | finalizeDone | finalizeInternal | finalize => exact .inr (.inr ⟨rfl, rfl, rfl⟩)
end CommandWrites

/-- What an input that is neither a legal command nor reset leaves of the block: every register but DATA, and ERR and
CAUSE once ERR is set. -/
structure KeepsRegisters (s t : State) : Prop where
  roll : t.roll = s.roll
  buf : t.buf = s.buf
  cursor : t.cursor = s.cursor
  hasMixed : t.hasMixed = s.hasMixed
  done : t.done = s.done
  result : t.result = s.result
  err : s.err = true → t.err = true ∧ t.cause = s.cause

/-- A step as the block's registers see it: reset, a legal command, or neither. -/
inductive RegisterCase (s t : State) : Prop where
  | reset (hr : resetNext s = true) (u : State) (ht : t = resetState u)
  | command (hr : resetNext s = false) (i : Instr) (hn : nextCommand s = some i) (rest : List Input) (agent : Nat)
      (ht : exec i { s with pending := rest, owner := some agent } = .next t)
  | other (hr : resetNext s = false) (hn : nextCommand s = none) (hkeeps : KeepsRegisters s t)

section Steps
variable {s t : State}

theorem resetNext_of_idle (hp : s.pending = []) : resetNext s = false := by simp [resetNext, hp]

theorem nextCommand_of_idle (hp : s.pending = []) : nextCommand s = none := by simp [nextCommand, hp]

theorem nextDataWrite_of_idle (hp : s.pending = []) : nextDataWrite s = none := by simp [nextDataWrite, hp]

theorem step_register_cases (h : step s = .next t) : RegisterCase s t := by
  cases step_cases h with
  | idle hp ht =>
    subst ht
    exact .other (resetNext_of_idle hp) (nextCommand_of_idle hp) ⟨rfl, rfl, rfl, rfl, rfl, rfl, fun he => ⟨he, rfl⟩⟩
  | reset rest hp hr hn ht => exact .reset hr _ ht
  | exec rest agent i hn hr hw ho ht => exact .command hr i hn rest agent ht
  | illegal rest agent w hn hr hw ho ht =>
    subst ht
    exact .other hr hn ⟨rfl, rfl, rfl, rfl, rfl, rfl, fun he => by simp [he]⟩
  | dataWrite rest agent v hn hr hw ho ht | quiet rest agent v hn hr hw ho ht =>
    subst ht
    exact .other hr hn ⟨rfl, rfl, rfl, rfl, rfl, rfl, fun he => ⟨he, rfl⟩⟩
end Steps

/-- Settles O19: reset, INIT, and the inputs that keep ERR and CAUSE once ERR is set. -/
theorem onlyInitAndResetClearErr : Obligations.OnlyInitAndResetClearErr := by
  intro s t hstep herr
  cases step_register_cases hstep with
  | reset hr u ht => exact ⟨fun _ => .inr hr, by simp [ht]⟩
  | command hr i hn rest agent ht =>
    rw [exec_eq_execFor] at ht
    rcases execFor_err ht herr with rfl | ⟨herr', hcause⟩
    · cases execFor_cases ht
      exact ⟨fun _ => .inl hn, by simp⟩
    · exact ⟨by simp [herr'], fun _ => hcause⟩
  | other hr hn hkeeps =>
    obtain ⟨herr', hcause⟩ := hkeeps.err herr
    exact ⟨by simp [herr'], fun _ => hcause⟩

/-- Settles O20: each command by what it does to HASMIXED; an input that is no command leaves it. -/
theorem onlyAppendSetsHasMixed : Obligations.OnlyAppendSetsHasMixed := by
  intro s t hstep
  cases step_register_cases hstep with
  | reset hr u ht => simp [ht, hr]
  | command hr i hn rest agent ht =>
    rw [exec_eq_execFor] at ht
    rcases execFor_hasMixed ht with ⟨rfl, hmixed⟩ | ⟨⟨n, rfl⟩, hmixed⟩ | ⟨rfl, hmixed⟩
    · simp [hn, hmixed]
    · exact ⟨fun _ _ => ⟨n, hn⟩, fun hs ht => by simp [hmixed hs] at ht, by simp [hn, hr]⟩
    · rw [hmixed]
      simp +contextual [hn, hr]
  | other hr hn hkeeps =>
    rw [hkeeps.hasMixed]
    simp +contextual [hn, hr]

/-- Settles O21: each command by what it does to DONE and RESULT; an input that is no command leaves both. -/
theorem onlyFinalizeSetsDoneAndResult : Obligations.OnlyFinalizeSetsDoneAndResult := by
  intro s t hstep
  cases step_register_cases hstep with
  | reset hr u ht => simp [ht, hr]
  | command hr i hn rest agent ht =>
    rw [exec_eq_execFor] at ht
    rcases execFor_done_result ht with ⟨rfl, hdone, hresult⟩ | ⟨rfl, hbefore, hafter⟩ | ⟨hdone, hresult⟩
    · simp [hn, hdone, hresult]
    · exact ⟨fun _ _ => hn, by simp [hafter], fun _ => .inl ⟨hn, hbefore, hafter⟩⟩
    · rw [hdone, hresult]
      simp +contextual
  | other hr hn hkeeps =>
    rw [hkeeps.done, hkeeps.result]
    simp +contextual

/-- Settles O22: a command keeps DATA, and of the other inputs only reset and a DATA write change it. -/
theorem dataChangesOnlyByItsWrites : Obligations.DataChangesOnlyByItsWrites := by
  refine ⟨fun s t hstep => ?_, fun i s t hexec => (exec_keeps hexec).1⟩
  cases step_cases hstep with
  | idle hp ht => simp [ht, resetNext_of_idle hp, nextDataWrite_of_idle hp]
  | reset rest hp hr hn ht => simp [ht, hr]
  | exec rest agent i hn hr hw ho ht => simp [hr, hw, (exec_keeps ht).1]
  | illegal rest agent w hn hr hw ho ht | dataWrite rest agent v hn hr hw ho ht
  | quiet rest agent v hn hr hw ho ht => simp [ht, hr, hw]

/-- Settles O23: FINALIZE keeps the three, and so does an input that is no command. -/
theorem onlyAppendAndInitWriteTheHashState : Obligations.OnlyAppendAndInitWriteTheHashState := by
  intro s t hstep hchange
  cases step_register_cases hstep with
  | reset hr u ht => exact .inr (.inr hr)
  | command hr i hn rest agent ht =>
    rw [exec_eq_execFor] at ht
    rcases execFor_hashState ht with ⟨n, rfl⟩ | rfl | ⟨hroll, hbuf, hcursor⟩
    · exact .inl ⟨n, hn⟩
    · exact .inr (.inl hn)
    · simp [hroll, hbuf, hcursor] at hchange
  | other hr hn hkeeps => simp [hkeeps.roll, hkeeps.buf, hkeeps.cursor] at hchange

end Sys2Proof.Machine

/-! ## STATUS and the mode (10_state.md R22, R28; 44_streaming.md R105) -/

namespace Sys2Proof.Machine

theorem getElem_flagWord (b : Bool) (i : Nat) (hi : i < 32) : (flagWord b)[i] = (b && decide (i = 0)) := by
  cases b <;> simp [flagWord, BitVec.getElem_one]

/-- R28: STATUS bit by bit, below CAUSE: the three flags and a 0. -/
theorem getLsbD_statusWord_flags (s : State) :
    (statusWord s).getLsbD 0 = s.done ∧ (statusWord s).getLsbD 1 = s.hasMixed ∧ (statusWord s).getLsbD 2 = s.err ∧
      (statusWord s).getLsbD 3 = false := by
  simp [statusWord, getElem_flagWord]

/-- R28: STATUS bit by bit, from CAUSE up. Past the end of CURSOR its bits are 0. -/
theorem getLsbD_statusWord_fields (s : State) {i : Nat} (hi : i < 32) (h4 : 4 ≤ i) :
    (statusWord s).getLsbD i = if i < 8 then s.cause.getLsbD (i - 4) else s.cursor.getLsbD (i - 8) := by
  have hflags : i ≠ 0 ∧ i - 1 ≠ 0 ∧ i - 2 ≠ 0 := by omega
  by_cases hcause : i < 8
  · simp [statusWord, getElem_flagWord, hflags, hcause, hi, Nat.not_lt.2 h4]
  · have hpast : s.cause.getLsbD (i - 4) = false := BitVec.getLsbD_of_ge _ _ (by omega)
    simp [statusWord, getElem_flagWord, hflags, hcause, hi, hpast]

theorem statusWord_cause (s : State) : (statusWord s).extractLsb' 4 4 = s.cause := by
  ext k hk
  rw [BitVec.getElem_extractLsb', getLsbD_statusWord_fields s (by omega) (by omega), if_pos (by omega),
    Nat.add_sub_cancel_left, BitVec.getLsbD_eq_getElem hk]

theorem statusWord_cursor (s : State) : (statusWord s).extractLsb' 8 7 = s.cursor := by
  ext k hk
  rw [BitVec.getElem_extractLsb', getLsbD_statusWord_fields s (by omega) (by omega), if_neg (by omega),
    Nat.add_sub_cancel_left, BitVec.getLsbD_eq_getElem hk]

theorem statusWord_reserved (s : State) : (statusWord s).extractLsb' 15 17 = 0 := by
  ext k hk
  rw [BitVec.getElem_extractLsb', getLsbD_statusWord_fields s (by omega) (by omega), if_neg (by omega),
    BitVec.getLsbD_of_ge _ _ (by omega)]
  simp

/-- An access that completes is one of R41's list, performed for the owner (R48). -/
theorem performAccess_next {run : Meaning} {agent : Nat} {a : Access} {s t : State}
    (h : performAccess run agent a s = .next t) :
    ∃ q, windowRequest a = some q ∧ perform run q { s with owner := some agent } = .next t := by
  unfold performAccess at h
  split at h
  · split at h
    · exact ⟨_, ‹_›, h⟩
    · cases h
  · cases h

/-- Settles O50: the fields are ranges of STATUS' bits, and the two STATUS accesses are what the window makes of them. -/
theorem statusFields : Obligations.StatusFields := by
  intro s
  obtain ⟨hdone, hmixed, herr, hzero⟩ := getLsbD_statusWord_flags s
  refine ⟨hdone, hmixed, herr, hzero, statusWord_cause s, statusWord_cursor s, statusWord_reserved s,
    fun agent t h => ?_, fun agent v t h => ?_⟩
  · obtain ⟨q, hq, ht⟩ := performAccess_next h
    cases hq; cases ht
    rfl
  · obtain ⟨q, hq, ht⟩ := performAccess_next h
    cases hq; cases ht
    rfl

section Modes
variable {cfg : Config} {s t : State}

theorem modeOf_of_done (hd : s.done = true) : modeOf s = .finalized := by simp [modeOf, hd]

theorem modeOf_congr (hd : t.done = s.done) (hm : t.hasMixed = s.hasMixed) : modeOf t = modeOf s := by
  rw [modeOf, modeOf, hd, hm]

/-- R115: a raise keeps the mode. -/
theorem modeOf_raiseError (c : Cause) (w : CmdWord) : modeOf (raiseError c w s) = modeOf s := modeOf_congr rfl rfl

/-- R20, R99: the append step sets HASMIXED exactly when the chunk does not fit. -/
theorem appendChunk_hasMixed (C : List Byte) (hc : s.cursor.toNat ≤ 64) :
    (appendChunk cfg C s).hasMixed = (s.hasMixed || decide (64 < s.cursor.toNat + C.length)) := by
  by_cases hfits : C.length ≤ 64 - s.cursor.toNat
  · rw [appendChunk_fits cfg C s hfits, decide_eq_false (by omega), Bool.or_false]
  · rw [appendChunk_spills cfg C s hfits, decide_eq_true (by omega), Bool.or_true]
    obtain ⟨-, -, hmixed⟩ := appendTail_cursor_range cfg C.length (C.drop (64 - s.cursor.toNat))
      (mixBuffer cfg (initIfFirst cfg
        { s with buf := storeBytes s.buf s.cursor.toNat (C.take (64 - s.cursor.toNat)) }))
      (by simp; omega) (by simp; omega)
    rw [hmixed, mixBuffer_hasMixed, initIfFirst_hasMixed]

/-- R105: the append step leads from BUFFERING to MIXING when the chunk does not fit, and otherwise keeps the mode. -/
theorem modeOf_appendChunk (C : List Byte) (hd : s.done = false) (hc : s.cursor.toNat ≤ 64) :
    modeOf (appendChunk cfg C s) =
      if modeOf s = .buffering ∧ 64 < s.cursor.toNat + C.length then .mixing else modeOf s := by
  by_cases hspills : 64 < s.cursor.toNat + C.length <;> cases hm : s.hasMixed <;>
    simp [modeOf, hd, hm, appendChunk_hasMixed C hc, hspills]
end Modes

/-- Settles O53: each command's row of R105, the misuse after FINALIZE included. -/
theorem modeTransitions : Obligations.ModeTransitions := by
  intro s hc hm
  refine ⟨⟨_, rfl, rfl⟩, fun n hn => ?_, ?_, fun w why hw => ?_⟩
  · cases hd : s.done with
    | true => exact ⟨_, exec_append_done hn hd, by simp [modeOf_raiseError, modeOf_of_done hd]⟩
    | false => exact ⟨_, exec_append hn hd hc, by simpa using modeOf_appendChunk (dataChunk n.toNat s.data) hd hc⟩
  · cases hd : s.done with
    | true => exact ⟨_, exec_finalize_done hd, modeOf_of_done hd⟩
    | false => exact ⟨_, exec_finalize hd hc hm, modeOf_of_done (deliverResult_done _ s)⟩
  · exact ⟨_, perform_illegal hw s, modeOf_raiseError _ _⟩

end Sys2Proof.Machine

/-! ## What the configuration reaches (00_scope.md R7, 10_state.md R31) -/

namespace Sys2Proof.Machine

section TwoConfigurations
variable (cfg cfg' : Config)

/-- R99: the loop's copies and CURSOR do not depend on the configuration or on the rolling state. -/
theorem appendTail_eq_off_roll (k : Nat) : ∀ (C : List Byte) (s : State) (r : Rolling),
    ∃ r', appendTail cfg' k C { s with roll := r } = { appendTail cfg k C s with roll := r' } := by
  induction k with
  | zero => intro C s r; exact ⟨r, rfl⟩
  | succ k ih =>
    intro C s r
    unfold appendTail
    split
    · exact ih _ (mixBuffer cfg { s with buf := storeBytes s.buf 0 (C.take 64) }) _
    · exact ⟨r, rfl⟩

theorem initIfFirst_eq_off_roll (s : State) :
    ∃ r, initIfFirst cfg' s = { initIfFirst cfg s with roll := r } := by
  unfold initIfFirst
  split
  · exact ⟨s.roll, rfl⟩
  · exact ⟨_, rfl⟩

/-- R31, R99: under two configurations the append step differs in the rolling state alone. -/
theorem appendChunk_eq_off_roll (C : List Byte) (s : State) :
    ∃ r, appendChunk cfg' C s = { appendChunk cfg C s with roll := r } := by
  by_cases hfits : C.length ≤ 64 - s.cursor.toNat
  · rw [appendChunk_fits cfg' C s hfits, appendChunk_fits cfg C s hfits]
    exact ⟨s.roll, rfl⟩
  · rw [appendChunk_spills cfg' C s hfits, appendChunk_spills cfg C s hfits]
    obtain ⟨r, hinit⟩ := initIfFirst_eq_off_roll cfg cfg'
      { s with buf := storeBytes s.buf s.cursor.toNat (C.take (64 - s.cursor.toNat)) }
    rw [hinit]
    exact appendTail_eq_off_roll cfg cfg' C.length _ (mixBuffer cfg (initIfFirst cfg _)) _
end TwoConfigurations

/-- R31: under two configurations a command answers alike, off the rolling state and RESULT: INIT and the raises read no
configuration, APPEND differs in the rolling state and FINALIZE in RESULT. -/
theorem execFor_eq_off_hash {cfg : Config} (cfg' : Config) {i : Instr} {s t : State} (h : execFor cfg i s = .next t) :
    ∃ r v, execFor cfg' i s = .next { t with roll := r, result := v } := by
  cases execFor_cases h with
  | init => exact ⟨_, _, rfl⟩
  | appendIllegal n hn => exact ⟨_, _, execFor_append_illegal hn⟩
  | appendDone n hn hd => exact ⟨_, _, execFor_append_done hn hd⟩
  | append n hn hd hc =>
    obtain ⟨r, hr⟩ := appendChunk_eq_off_roll cfg cfg' (dataChunk n.toNat s.data) s
    exact ⟨r, _, hr ▸ execFor_append hn hd hc⟩
  | finalizeDone hd => exact ⟨_, _, execFor_finalize_done hd⟩
  | finalizeInternal hd hm hc => exact ⟨_, _, execFor_finalize_internal hd hm hc⟩
  | finalize hd hc hm => exact ⟨s.roll, arbiter cfg' s, execFor_finalize hd hc hm⟩

/-- Settles O57: STATUS reads neither the rolling state nor RESULT. -/
theorem configurationReachesOnlyTheHash : Obligations.ConfigurationReachesOnlyTheHash := by
  intro cfg cfg' i s t hexec
  obtain ⟨r, v, hexec'⟩ := execFor_eq_off_hash cfg' hexec
  exact ⟨_, hexec', rfl, rfl⟩

end Sys2Proof.Machine

/-! ## The step and its next input (20_memory.md R43, R47; log 1, log 5) -/

namespace Sys2Proof.Machine

section Accesses
variable {run : Meaning} {agent : Nat} {a : Access} {s : State}

/-- R41: an admitted access does what its request does, with its agent noted as the owner (log 5). -/
theorem performAccess_of_owned (ho : s.owner = none ∨ s.owner = some agent) {q : Request}
    (hq : windowRequest a = some q) : performAccess run agent a s = perform run q { s with owner := some agent } := by
  rw [performAccess, if_pos ((ownedBy_iff agent s).2 ho), hq]

/-- R41: an access outside the list is refused (log 4). -/
theorem performAccess_of_unlisted (ho : s.owner = none ∨ s.owner = some agent) (hq : windowRequest a = none) :
    performAccess run agent a s = .refused .hostBadAccess := by
  rw [performAccess, if_pos ((ownedBy_iff agent s).2 ho), hq]

/-- R48: the access of an agent that does not own the block is refused, whatever the access is. -/
theorem performAccess_of_other {o : Nat} (ho : s.owner = some o) (hne : o ≠ agent) :
    performAccess run agent a s = .refused .secondAgent := by
  have hnot : ¬ownedBy agent s = true := by simp [ownedBy_iff, ho, hne]
  rw [performAccess, if_neg hnot]

/-- R41, R52: a 32-bit write to offset 0 is a command, and its word is the value written. -/
theorem windowRequest_command (w : CmdWord) : windowRequest (.write 32 0x00 w) = some (.command w) := by
  simp [windowRequest]

/-- R26, R41: a 64-bit write to offset 8 is a DATA write of the value itself. -/
theorem windowRequest_writeData (v : Word) : windowRequest (.write 64 0x08 v) = some (.writeData v) := by
  simp [windowRequest]

theorem performAccess_command (ho : s.owner = none ∨ s.owner = some agent) (w : CmdWord) :
    performAccess run agent (.write 32 0x00 w) s = command run w { s with owner := some agent } :=
  performAccess_of_owned ho (windowRequest_command w)

theorem command_of_instr {w : CmdWord} {i : Instr} (h : decode w = .instr i) : command run w s = run i s := by
  rw [command, h]

theorem step_of_nil (hp : s.pending = []) : step s = .next s := by
  rw [step, stepPending, hp]

theorem step_of_cons {inp : Input} {rest : List Input} (hp : s.pending = inp :: rest) :
    step s = performInput exec inp { s with pending := rest } := by
  rw [step, stepPending, hp]

theorem step_command {w : CmdWord} {rest : List Input} (hp : s.pending = .access agent (.write 32 0x00 w) :: rest)
    (ho : s.owner = none ∨ s.owner = some agent) :
    step s = command exec w { s with pending := rest, owner := some agent } :=
  (step_of_cons hp).trans (performAccess_command (s := { s with pending := rest }) ho w)
end Accesses

/-- Settles O5: the step on an owned CMD write is the command's, and `command` decodes first. -/
theorem stepRunsDecodedCommand : Obligations.StepRunsDecodedCommand := by
  intro s agent w rest hp ho
  rw [step_command hp ho]
  exact ⟨fun i hi => command_of_instr hi, fun why hw => perform_illegal hw _⟩

/-- A CMD word is its own 32 bits, so `withFetchWord` places the word itself. -/
theorem withFetchWord_toNat (s : State) (w : CmdWord) : s.withFetchWord 32 w.toNat = withCommand w s := by
  rw [State.withFetchWord, Nat.mod_eq_of_lt w.isLt, BitVec.ofNat_toNat, BitVec.setWidth_eq]

/-- The agent `commandInput` names may access the block. -/
theorem owner_getD_owns (s : State) : s.owner = none ∨ s.owner = some (s.owner.getD 0) := by
  cases s.owner <;> simp

/-- Settles O6: each by what stands first in the pending list; `withFetchWord` puts an owned CMD write there. -/
theorem stepTakesTheNextInput : Obligations.StepTakesTheNextInput := by
  refine ⟨fun s hp => step_of_nil hp, fun s rest hp => step_of_cons hp, fun s w i hw => ?_⟩
  rw [withFetchWord_toNat]
  exact (step_command (s := withCommand w s) rfl (owner_getD_owns s)).trans (command_of_instr hw)

end Sys2Proof.Machine

/-! ## Byte order (20_memory.md R34, R35, R37; 40_primitives.md R69, R70) -/

namespace Sys2Proof.Machine

section Fetch
variable (S : List Byte) (off : Nat)

/-- R34: a fetch bit by bit. The bytes it adds up have no bit in common, so that the sum is their bitwise or. -/
theorem getLsbD_fetchLE {n : Nat} (hn : n ≤ 8) (k : Nat) :
    (fetchLE S off n).getLsbD k = (decide (k < 8 * n) && (byteAt S (off + k / 8)).getLsbD (k % 8)) := by
  induction n generalizing k with
  | zero => simp [fetchLE]
  | succ n ih =>
    have hlower := ih (by omega)
    have hdisjoint : fetchLE S off n &&& (zext8 (byteAt S (off + n)) <<< (8 * n)) = 0#64 := by
      apply BitVec.eq_of_getLsbD_eq
      intro j hj
      by_cases hlow : j < 8 * n <;> simp [hlower, hlow]
    rw [fetchLE, BitVec.add_eq_or_of_and_eq_zero _ _ hdisjoint, BitVec.getLsbD_or, hlower]
    rcases Nat.lt_or_ge k (8 * n) with hlow | hhigh
    · simp [hlow, show k < 8 * (n + 1) by omega]
    · by_cases hbyte : k < 8 * (n + 1)
      · have hdiv : k / 8 = n := by omega
        have hmod : k % 8 = k - 8 * n := by omega
        simp [zext8, Nat.not_lt.2 hhigh, hbyte, hdiv, hmod, show k < 64 by omega]
      · have hpast : (byteAt S (off + n)).getLsbD (k - 8 * n) = false := BitVec.getLsbD_of_ge _ _ (by omega)
        simp [zext8, Nat.not_lt.2 hhigh, hbyte, hpast]

/-- R11, R34: byte i of a fetch of n bytes is the byte at off + i. -/
theorem extractLsb'_fetchLE {n i : Nat} (hn : n ≤ 8) (hi : i < n) :
    (fetchLE S off n).extractLsb' (8 * i) 8 = byteAt S (off + i) := by
  ext j hj
  have hdiv : (8 * i + j) / 8 = i := by omega
  have hmod : (8 * i + j) % 8 = j := by omega
  rw [BitVec.getElem_extractLsb', getLsbD_fetchLE S off hn, hdiv, hmod, decide_eq_true (by omega), Bool.true_and,
    BitVec.getLsbD_eq_getElem hj]

/-- R37, R70: a 32-bit fetch is the low half of the 64-bit one, zero-extended; so too past the end of S (log 11). -/
theorem fetch32_eq_fetch64_low : fetch32 S off = ((fetch64 S off).setWidth 32).setWidth 64 := by
  apply BitVec.eq_of_getLsbD_eq
  intro k hk
  rw [fetch32, fetch64, BitVec.getLsbD_setWidth, BitVec.getLsbD_setWidth, getLsbD_fetchLE S off (by omega),
    getLsbD_fetchLE S off (by omega)]
  by_cases hlow : k < 32 <;> simp [hlow, hk]

theorem fetch32_lt : (fetch32 S off).toNat < 2 ^ 32 := by
  rw [fetch32_eq_fetch64_low, BitVec.toNat_setWidth_of_le (by omega)]
  exact BitVec.isLt _
end Fetch

/-- Settles O41: both fetches are little-endian by their bytes; the 32-bit one is a zero-extended half. -/
theorem fetchIsLittleEndian : Obligations.FetchIsLittleEndian := fun S off =>
  ⟨fun _ hi => extractLsb'_fetchLE S off (Nat.le_refl 8) hi, fun _ hi => extractLsb'_fetchLE S off (by omega) hi,
    fetch32_lt S off⟩

/-- Settles O42: the half's zero extension, cut back to 32 bits, is the half. -/
theorem fetch32IsTheLowHalfOfFetch64 : Obligations.Fetch32IsTheLowHalfOfFetch64 := by
  intro S off _
  refine ⟨?_, fetch32_eq_fetch64_low S off⟩
  rw [fetch32_eq_fetch64_low, BitVec.setWidth_setWidth_of_le _ (by omega), BitVec.setWidth_eq,
    BitVec.setWidth_eq_extractLsb' (by omega)]

end Sys2Proof.Machine

/-! ## The register window: what an access does and whose it may be (20_memory.md R41, R44, R48) -/

namespace Sys2Proof.Machine

/-- R41: off the list there is no request, read or written. -/
theorem windowRequest_of_unlisted {width off : Nat}
    (h : (off, width) ∉ [(0x00, 32), (0x08, 64), (0x10, 64), (0x18, 32)]) :
    windowRequest (.read width off) = none ∧ ∀ v, windowRequest (.write width off v) = none := by
  simp only [List.mem_cons, Prod.mk.injEq, List.not_mem_nil, or_false, not_or] at h
  simp [windowRequest, h]

/-- Settles O48: the listed accesses by their requests, the others by having none. -/
theorem exactlyTheListedAccessesAreAdmitted : Obligations.ExactlyTheListedAccessesAreAdmitted := by
  intro agent s ho u
  have hlisted (q : Request) {a : Access} (hq : windowRequest a = some q) :
      performAccess exec agent a s = perform exec q u := performAccess_of_owned ho hq
  refine ⟨fun w => performAccess_command ho w, hlisted .readCmd rfl, hlisted .readData rfl,
    fun v => hlisted (.writeData v) (windowRequest_writeData v), hlisted .readResult rfl,
    fun _ => hlisted .writeResult rfl, hlisted .readStatus rfl, fun _ => hlisted .writeStatus rfl,
    fun width off hoff => ?_⟩
  obtain ⟨hread, hwrite⟩ := windowRequest_of_unlisted hoff
  exact ⟨performAccess_of_unlisted ho hread, fun v => performAccess_of_unlisted ho (hwrite v)⟩

/-- R44: a read that is admitted records a reply, and does nothing else. -/
theorem perform_read {width off : Nat} {q : Request} (hq : windowRequest (.read width off) = some q) (run : Meaning)
    (s : State) : ∃ r, perform run q s = .next (reply r s) := by
  simp only [windowRequest] at hq
  split_ifs at hq <;> cases hq <;> exact ⟨_, rfl⟩

section AppendMoves
variable {cfg : Config} {C : List Byte} {s : State}

/-- R99: no more than a buffer's bytes need no further mix. -/
theorem appendTail_of_le (k : Nat) (h : C.length ≤ 64) : appendTail cfg k C s = copyRest C s := by
  cases k with
  | zero => rfl
  | succ k => rw [appendTail, if_neg (by omega)]

/-- R18, R99: where CURSOR stands after a chunk of at most one block. -/
theorem appendChunk_cursor (hc : s.cursor.toNat ≤ 64) (hC : C.length ≤ 64) :
    (appendChunk cfg C s).cursor.toNat =
      if s.cursor.toNat + C.length ≤ 64 then s.cursor.toNat + C.length else s.cursor.toNat + C.length - 64 := by
  by_cases hfits : s.cursor.toNat + C.length ≤ 64
  · rw [appendChunk_fits cfg C s (by omega), if_pos hfits]
    exact cursor_toNat_ofNat hfits
  · rw [appendChunk_spills cfg C s (by omega), appendTail_of_le _ (by simp; omega), copyRest_cursor, List.length_drop,
      cursor_toNat_ofNat (by omega), if_neg hfits]
    omega

/-- R44: a chunk of 1 to 63 bytes moves CURSOR; one of 64 need not. -/
theorem appendChunk_cursor_ne (hc : s.cursor.toNat ≤ 64) (h1 : 1 ≤ C.length) (h63 : C.length ≤ 63) :
    (appendChunk cfg C s).cursor ≠ s.cursor := by
  intro heq
  have hcursor := appendChunk_cursor (cfg := cfg) hc (show C.length ≤ 64 by omega)
  rw [heq] at hcursor
  split at hcursor <;> omega

/-- The append step of no bytes changes nothing. -/
theorem appendChunk_nil (hc : s.cursor.toNat ≤ 64) : appendChunk cfg [] s = s := appendChunk_eq_foldl cfg [] s hc
end AppendMoves

/-- R44, R102: APPEND with LEN = 0 changes nothing while DONE = 0. -/
theorem exec_append_zero {s : State} (hd : s.done = false) (hc : s.cursor.toNat ≤ 64) :
    exec (.append 0) s = .next s :=
  (exec_append (by decide) hd hc).trans (congrArg _ (appendChunk_nil hc))

/-- Settles O49: the accesses by their requests, the commands by their completing cases. -/
theorem accessSideEffectsAndIdempotency : Obligations.AccessSideEffectsAndIdempotency := by
  refine ⟨fun agent width off s t h => ?_, fun agent v s t h => ?_, fun agent w s ho => performAccess_command ho w,
    fun s => ⟨freshState s, rfl, rfl⟩, fun s n h1 h8 hd hc => ?_, fun s hd hc => exec_append_zero hd hc,
    fun s t _ hd => exec_finalize_done hd⟩
  · obtain ⟨q, hq, ht⟩ := performAccess_next h
    obtain ⟨r, hr⟩ := perform_read hq exec { s with owner := some agent }
    cases hr.symm.trans ht
    rfl
  · obtain ⟨q, hq, ht⟩ := performAccess_next h
    cases (windowRequest_writeData v).symm.trans hq; cases ht
    rfl
  · obtain ⟨hrange, -⟩ := appendChunk_cursor_range activeConfig (dataChunk n.toNat s.data) s hc
    have hagain := exec_append (s := appendChunk activeConfig (dataChunk n.toNat s.data) s) h8
      (by simpa using hd) hrange
    rw [appendChunk_data] at hagain
    exact ⟨_, _, exec_append h8 hd hc, hagain, appendChunk_cursor_ne hrange (by simpa using h1) (by simp; omega),
      fun M hM => ⟨hM.append _, (hM.append _).append _⟩⟩

/-- R48: no request, once admitted, writes the owner. -/
theorem perform_owner {q : Request} {s t : State} (h : perform exec q s = .next t) : t.owner = s.owner := by
  cases q with
  | command w =>
    cases hw : decode w with
    | instr i =>
      obtain ⟨-, -, -, howner⟩ := exec_keeps ((command_of_instr hw).symm.trans h)
      exact howner
    | illegal why => cases (perform_illegal hw s).symm.trans h; rfl
  | readCmd | writeData | readData | readResult | writeResult | readStatus | writeStatus => cases h; rfl

theorem performAccess_owner {agent : Nat} {a : Access} {s t : State} (h : performAccess exec agent a s = .next t) :
    t.owner = some agent := by
  obtain ⟨q, -, ht⟩ := performAccess_next h
  exact perform_owner ht

/-- R48: the first owner stays; a step of another agent is refused, and reset frees no block (log 5). -/
theorem step_owner {o : Nat} {s t : State} (ho : s.owner = some o) (h : step s = .next t) : t.owner = some o := by
  cases hp : s.pending with
  | nil => cases (step_of_nil hp).symm.trans h; exact ho
  | cons inp rest =>
    have hinp := (step_of_cons hp).symm.trans h
    cases inp with
    | reset => cases hinp; exact ho
    | access agent a =>
      by_cases hagent : o = agent
      · exact hagent ▸ performAccess_owner hinp
      · cases (performAccess_of_other (s := { s with pending := rest }) ho hagent).symm.trans hinp

/-- Settles O51: the refusal by the owner test, the owner's stay by the inputs that complete. -/
theorem secondAgentIsRefused : Obligations.SecondAgentIsRefused :=
  ⟨fun _ _ _ _ ho hne => performAccess_of_other ho hne, fun _ _ _ _ h => performAccess_owner h,
    fun _ _ _ ho h => step_owner ho h⟩

end Sys2Proof.Machine

/-! ## The encoding: words by their fields (30_encoding.md R52 to R59, R62) -/

namespace Sys2Proof.Machine

section WordFields
variable {v w : CmdWord}

theorem toNat_opField (w : CmdWord) : (opField w).toNat = w.toNat % 16 := by simp [opField]

theorem toNat_lenField (w : CmdWord) : (lenField w).toNat = w.toNat / 16 % 16 := by
  simp [lenField, Nat.shiftRight_eq_div_pow]

theorem toNat_rsvField (w : CmdWord) : (rsvField w).toNat = w.toNat / 256 := by
  have hlt := w.isLt
  simp [rsvField, Nat.shiftRight_eq_div_pow]
  omega

/-- R52: the three fields are the whole word. -/
theorem cmdWord_ext_iff :
    v = w ↔ rsvField v = rsvField w ∧ opField v = opField w ∧ lenField v = lenField w := by
  simp only [← BitVec.toNat_inj, toNat_rsvField, toNat_opField, toNat_lenField]
  omega

/-- R54: APPEND's row of the table fixes RSV and OP and leaves LEN free. -/
theorem and_appendMask_eq_iff : w &&& 0xFFFFFF0F = 0x00000002 ↔ rsvField w = 0 ∧ opField w = 0x2 := by
  have hrsv : rsvField (w &&& 0xFFFFFF0F) = rsvField w :=
    BitVec.extractLsb'_and.trans (BitVec.and_allOnes (x := rsvField w))
  have hop : opField (w &&& 0xFFFFFF0F) = opField w :=
    BitVec.extractLsb'_and.trans (BitVec.and_allOnes (x := opField w))
  have hlen : lenField (w &&& 0xFFFFFF0F) = 0 := BitVec.extractLsb'_and.trans BitVec.and_zero
  obtain ⟨hrsv', hop', hlen'⟩ := Laws.WordFields.append 0
  rw [show (0x00000002 : CmdWord) = encode (.append 0) from rfl, cmdWord_ext_iff, hrsv, hop, hlen, hrsv', hop', hlen']
  simp
end WordFields

section Decoder
variable {w : CmdWord} {i : Instr}

/-- R54, R59: a word that decodes to a command has RSV, OP and LEN of that command's word, and so is that word. -/
theorem wellFormed_and_encode_of_decode (h : decode w = .instr i) : i.wellFormed = true ∧ encode i = w := by
  have hrsv : rsvField w = 0 := by
    refine Decidable.byContradiction fun hne => ?_
    rw [decode, if_pos hne] at h
    cases h
  rw [decode, if_neg (not_not.2 hrsv)] at h
  split_ifs at h with hop hlen hop hlen hop hlen <;> cases h
  · obtain ⟨hrsv', hop', hlen'⟩ := Laws.WordFields.init
    exact ⟨rfl, cmdWord_ext_iff.2 ⟨hrsv'.trans hrsv.symm, hop'.trans hop.symm, hlen'.trans hlen.symm⟩⟩
  · obtain ⟨hrsv', hop', hlen'⟩ := Laws.WordFields.append (lenField w)
    exact ⟨decide_eq_true hlen, cmdWord_ext_iff.2 ⟨hrsv'.trans hrsv.symm, hop'.trans hop.symm, hlen'⟩⟩
  · obtain ⟨hrsv', hop', hlen'⟩ := Laws.WordFields.finalize
    exact ⟨rfl, cmdWord_ext_iff.2 ⟨hrsv'.trans hrsv.symm, hop'.trans hop.symm, hlen'.trans hlen.symm⟩⟩

theorem decode_eq_instr_iff : decode w = .instr i ↔ i.wellFormed = true ∧ encode i = w :=
  ⟨wellFormed_and_encode_of_decode, fun ⟨hwf, henc⟩ => henc ▸ decode_encode hwf⟩

/-- R58: the illegal words, by the values of their fields. The cases are the decoder's ends in its order, but for
RSV ≠ 0, which comes last. -/
theorem exists_decode_illegal_iff (w : CmdWord) :
    (∃ why, decode w = .illegal why) ↔
      (w.toNat % 16 = 0 ∨ 4 ≤ w.toNat % 16) ∨ w.toNat / 256 ≠ 0 ∨
        ((w.toNat % 16 = 1 ∨ w.toNat % 16 = 3) ∧ w.toNat / 16 % 16 ≠ 0) ∨
        (w.toNat % 16 = 2 ∧ 8 < w.toNat / 16 % 16) := by
  simp only [decode, ne_eq, ← BitVec.toNat_inj, toNat_rsvField, toNat_opField, toNat_lenField, BitVec.ofNat_eq_ofNat,
    BitVec.toNat_ofNat]
  split_ifs with hrsv hinit hlen happend hlen hfinalize hlen
  · exact iff_of_false (by simp) (by omega)
  · exact iff_of_true ⟨_, rfl⟩ (by omega)
  · exact iff_of_false (by simp) (by omega)
  · exact iff_of_true ⟨_, rfl⟩ (by omega)
  · exact iff_of_false (by simp) (by omega)
  · exact iff_of_true ⟨_, rfl⟩ (by omega)
  · exact iff_of_true ⟨_, rfl⟩ (by omega)
  · exact iff_of_true ⟨_, rfl⟩ (by omega)
end Decoder

/-- Settles O2: each command's word by its fields, and a word is its fields. -/
theorem decodeAndEncodeAgree : Obligations.DecodeAndEncodeAgree :=
  ⟨fun _ hwf => decode_encode hwf, fun _ _ h => wellFormed_and_encode_of_decode h⟩

/-- Settles O3: INIT and FINALIZE are one word each; APPEND's mask leaves LEN free, which its constraint bounds. -/
theorem decodeMatchesTableRows : Obligations.DecodeMatchesTableRows := by
  intro w
  have hall : w &&& 0xFFFFFFFF = w := BitVec.and_allOnes
  refine ⟨?_, fun len => ?_, ?_⟩
  · rw [decode_eq_instr_iff, hall, eq_comm (a := w)]
    exact and_iff_right rfl
  · obtain ⟨hrsv, hop, hlen⟩ := Laws.WordFields.append len
    rw [decode_eq_instr_iff, and_appendMask_eq_iff, cmdWord_ext_iff, hrsv, hop, hlen, ← toNat_lenField,
      BitVec.toNat_inj, Instr.wellFormed, decide_eq_true_eq, eq_comm (b := rsvField w), eq_comm (b := opField w)]
    constructor
    · rintro ⟨hle, hrsv', hop', rfl⟩
      exact ⟨⟨hrsv', hop'⟩, rfl, hle⟩
    · rintro ⟨⟨hrsv', hop'⟩, rfl, hle⟩
      exact ⟨hle, hrsv', hop', rfl⟩
  · rw [decode_eq_instr_iff, hall, eq_comm (a := w)]
    exact and_iff_right rfl

/-- Settles O4: the decoder's tests are R58's four kinds, and a CMD write of such a word is one raise. -/
theorem illegalWordsRaiseIllegalCmd : Obligations.IllegalWordsRaiseIllegalCmd :=
  fun w => ⟨exists_decode_illegal_iff w, fun ⟨_, h⟩ s => perform_illegal h s⟩

/-- Settles O1: the words are the encodings' values, and the four others are of R58's kinds. -/
theorem workedEncodingsDecode : Obligations.WorkedEncodingsDecode := by
  refine ⟨rfl, rfl, rfl, rfl, rfl, decode_encode (i := .init) rfl, decode_encode (i := .append 0) rfl,
    decode_encode (i := .append 3) rfl, decode_encode (i := .append 8) rfl, decode_encode (i := .finalize) rfl,
    fun w hw => (exists_decode_illegal_iff w).2 ?_⟩
  simp only [List.mem_cons, List.not_mem_nil, or_false] at hw
  rcases hw with rfl | rfl | rfl | rfl <;> decide

end Sys2Proof.Machine

/-! ## The chunks of a message and of DATA (30_encoding.md R56, R61) -/

namespace Sys2Proof.Machine

section DataChunk
variable {n : Nat} {a b : Word}

/-- R56: a chunk of n bytes takes the low 8n bits of DATA and no others. -/
theorem dataChunk_congr (h : a.toNat % 2 ^ (8 * n) = b.toNat % 2 ^ (8 * n)) : dataChunk n a = dataChunk n b := by
  refine bytes_ext (by simp) fun k hk => ?_
  rw [dataChunk_length] at hk
  rw [byteAt_dataChunk n a k hk, byteAt_dataChunk n b k hk]
  ext j hj
  have hbit := congrArg (Nat.testBit · (8 * k + j)) h
  simp only [Nat.testBit_mod_two_pow, decide_eq_true (show 8 * k + j < 8 * n by omega), Bool.true_and] at hbit
  rw [BitVec.getElem_extractLsb', BitVec.getElem_extractLsb']
  exact hbit
end DataChunk

/-- Settles O52: the chunk's length and bytes, and DATA's low bits as all it takes. -/
theorem chunkTakesTheLowBytesOfData : Obligations.ChunkTakesTheLowBytesOfData :=
  ⟨fun _ _ hn hd hc => exec_append hn hd hc, fun _ => rfl, fun n data _ =>
    ⟨dataChunk_length n data, fun k hk => byteAt_dataChunk n data k hk, fun _ h => dataChunk_congr h.symm⟩⟩

section PackBytes
variable {C : List Byte} {k : Nat}

/-- R61: the packed value bit by bit. Its first byte and those above it have no bit in common, so that the sum is their
bitwise or. -/
theorem getLsbD_packBytes_cons (b : Byte) (C : List Byte) {i : Nat} (hi : i < 64) :
    (packBytes (b :: C)).getLsbD i = if i < 8 then b.getLsbD i else (packBytes C).getLsbD (i - 8) := by
  have hpast {j : Nat} (hj : 8 ≤ j) : b.getLsbD j = false := BitVec.getLsbD_of_ge b j hj
  have hdisjoint : b.setWidth 64 &&& (packBytes C <<< 8) = 0#64 := by
    apply BitVec.eq_of_getLsbD_eq
    intro j hj
    by_cases hlow : j < 8
    · simp [hlow]
    · simp [hpast (Nat.not_lt.1 hlow)]
  rw [packBytes, BitVec.add_eq_or_of_and_eq_zero _ _ hdisjoint]
  by_cases hlow : i < 8
  · simp [hlow, hi]
  · simp [hlow, hi, hpast (Nat.not_lt.1 hlow), BitVec.getLsbD_eq_getElem (show i - 8 < 64 by omega)]

/-- R61: byte k of the packed value is byte k of the sequence, which is 0 past its end. -/
theorem extractLsb'_packBytes (C : List Byte) (hk : k < 8) : (packBytes C).extractLsb' (8 * k) 8 = byteAt C k := by
  induction C generalizing k with
  | nil => simp [packBytes, byteAt]
  | cons b C ih =>
    ext j hj
    rw [BitVec.getElem_extractLsb', getLsbD_packBytes_cons b C (by omega)]
    cases k with
    | zero => simp [byteAt, hj]
    | succ k =>
      have hbit := congrArg (BitVec.getLsbD · j) (ih (k := k) (by omega))
      rw [if_neg (by omega), show 8 * (k + 1) + j - 8 = 8 * k + j by omega]
      simpa [byteAt, hj] using hbit

/-- R61: APPENDI delivers its chunk: APPEND takes from the packed value the bytes that were packed. -/
theorem dataChunk_packBytes (h : C.length ≤ 8) : dataChunk C.length (packBytes C) = C := by
  refine bytes_ext (by simp) fun k hk => ?_
  rw [dataChunk_length] at hk
  rw [byteAt_dataChunk _ _ _ hk, extractLsb'_packBytes C (by omega)]
end PackBytes

section Chunks
variable {k j : Nat} {M C : List Byte}

@[simp] theorem chunksOf8_nil (k : Nat) : chunksOf8 k [] = [] := by cases k <;> rfl

theorem chunksOf8_succ (k : Nat) (hM : M ≠ []) : chunksOf8 (k + 1) M = M.take 8 :: chunksOf8 k (M.drop 8) := by
  simp [chunksOf8, hM]

theorem flatten_chunksOf8 (h : M.length ≤ k) : (chunksOf8 k M).flatten = M := by
  induction k generalizing M with
  | zero => simp_all [chunksOf8]
  | succ k ih =>
    by_cases hM : M = []
    · simp [hM]
    · rw [chunksOf8_succ k hM, List.flatten_cons, ih (by simp; omega), List.take_append_drop]

theorem length_chunksOf8 (h : M.length ≤ k) : (chunksOf8 k M).length = (M.length + 7) / 8 := by
  induction k generalizing M with
  | zero => simp_all [chunksOf8]
  | succ k ih =>
    by_cases hM : M = []
    · simp [hM]
    · have hpos := List.length_pos_of_ne_nil hM
      rw [chunksOf8_succ k hM, List.length_cons, ih (by simp; omega), List.length_drop]
      omega

/-- R61: chunk j is bytes 8j to 8j + 7 of the message, or those of them it has. -/
theorem eq_of_getElem?_chunksOf8 (h : (chunksOf8 k M)[j]? = some C) : C = (M.drop (8 * j)).take 8 := by
  induction k generalizing M j with
  | zero => simp [chunksOf8] at h
  | succ k ih =>
    by_cases hM : M = []
    · simp [hM] at h
    · rw [chunksOf8_succ k hM] at h
      cases j with
      | zero => simpa using h.symm
      | succ j => rw [ih (j := j) (by simpa using h), List.drop_drop, Nat.mul_succ, Nat.add_comm]

theorem length_le_of_mem_chunksOf8 (h : C ∈ chunksOf8 k M) : C.length ≤ 8 := by
  obtain ⟨j, hj⟩ := List.mem_iff_getElem?.1 h
  simp [eq_of_getElem?_chunksOf8 hj]
end Chunks

/-- Settles O39: the chunks are the successive 8-byte pieces of the message, and a packed chunk is unpacked again. -/
theorem appendsExpansionDeliversTheBytes : Obligations.AppendsExpansionDeliversTheBytes := fun M =>
  ⟨flatten_chunksOf8 (Nat.le_refl _), length_chunksOf8 (Nat.le_refl _),
    fun j C h => by rw [eq_of_getElem?_chunksOf8 h, List.length_take, List.length_drop],
    fun _ h => dataChunk_packBytes (length_le_of_mem_chunksOf8 h)⟩

end Sys2Proof.Machine

/-! ## The HASH program (30_encoding.md R61, 44_streaming.md R108) -/

namespace Sys2Proof.Machine

section Appends
variable {C M : List Byte} {chunks : List (List Byte)} {op : HostOp}

/-- R61: an APPENDI line writes DATA, then appends what it wrote. -/
theorem deliveredBytes_appendChunkOps (hC : C.length ≤ 8) (d : Word) (ops : List HostOp) :
    deliveredBytes d (appendChunkOps C ++ ops) = C ++ deliveredBytes (packBytes C) ops := by
  have hlen : (BitVec.ofNat 4 C.length).toNat = C.length := by simp; omega
  simp only [appendChunkOps, appendI, List.cons_append, List.nil_append, deliveredBytes, hlen, dataChunk_packBytes hC]

theorem deliveredBytes_appendAll (h : ∀ C ∈ chunks, C.length ≤ 8) (d : Word) :
    deliveredBytes d (appendAll chunks) = chunks.flatten := by
  induction chunks generalizing d with
  | nil => rfl
  | cons C chunks ih =>
    rw [appendAll, List.flatMap_cons, deliveredBytes_appendChunkOps (h C (by simp)), List.flatten_cons]
    exact congrArg (C ++ ·) (ih (fun D hD => h D (by simp [hD])) _)

/-- R61: the APPENDs of APPENDS deliver the message. -/
theorem deliveredBytes_appends (d : Word) (M : List Byte) : deliveredBytes d (appends M) = M :=
  (deliveredBytes_appendAll (fun _ => length_le_of_mem_chunksOf8) d).trans (flatten_chunksOf8 (Nat.le_refl _))

/-- R61: APPENDS is made of DATA writes and legal APPENDs. -/
theorem mem_appends (h : op ∈ appends M) : (∃ v, op = .wdata v) ∨ ∃ n : BitVec 4, op = .append n ∧ n.toNat ≤ 8 := by
  obtain ⟨C, hC, hop⟩ := List.mem_flatMap.1 h
  have hlen := length_le_of_mem_chunksOf8 hC
  simp only [appendChunkOps, appendI, List.mem_cons, List.not_mem_nil, or_false] at hop
  rcases hop with rfl | rfl
  · exact .inl ⟨_, rfl⟩
  · exact .inr ⟨_, rfl, by simp; omega⟩

theorem messageOp_of_mem_appends (h : op ∈ appends M) : messageOp op = true := by
  rcases mem_appends h with ⟨v, rfl⟩ | ⟨n, rfl, hn⟩
  · rfl
  · exact decide_eq_true hn
end Appends

section Replies
variable {cfg : Config} {agent : Nat} {ops rest : List HostOp} {op : HostOp} {s t : State}

/-- A line that completes did what its request does. -/
theorem stepFor_hostOp_next (hp : s.pending = hostInputs agent (op :: rest)) (h : stepFor cfg s = .next t) :
    perform (execFor cfg) (hostRequest op) (afterIssue agent rest s) = .next t := by
  have haccess : stepFor cfg s =
      performAccess (execFor cfg) agent (hostAccess op) { s with pending := hostInputs agent rest } := by
    rw [stepFor, stepPending, hp]; rfl
  obtain ⟨q, hq, ht⟩ := performAccess_next (haccess.symm.trans h)
  cases (windowRequest_hostAccess op).symm.trans hq
  exact ht

/-- A CMD write touches neither the inputs behind it nor the values returned. -/
theorem perform_command_keeps {w : CmdWord} (h : perform (execFor cfg) (.command w) s = .next t) :
    t.pending = s.pending ∧ t.replies = s.replies := by
  cases hw : decode w with
  | instr i =>
    obtain ⟨-, hpending, hreplies, -⟩ := execFor_keeps ((command_of_instr hw).symm.trans h)
    exact ⟨hpending, hreplies⟩
  | illegal why => cases (perform_illegal hw s).symm.trans h; exact ⟨rfl, rfl⟩

/-- No line touches the inputs behind it, and only a STATUS or RESULT read adds to the values returned (log 13). -/
theorem stepFor_hostOp_keeps (hp : s.pending = hostInputs agent (op :: rest)) (h : stepFor cfg s = .next t)
    (hstat : op ≠ .rdstat) (hres : op ≠ .rdres) : t.pending = hostInputs agent rest ∧ t.replies = s.replies := by
  have hperform := stepFor_hostOp_next hp h
  cases op with
  | wdata v => cases hperform; exact ⟨rfl, rfl⟩
  | init | append | finalize | cmd => exact perform_command_keeps hperform
  | rdstat => exact absurd rfl hstat
  | rdres => exact absurd rfl hres

/-- A run that completes begins with a step that does. -/
theorem run_succ_next (M : Host.Core) {k : Nat} {s t : M.State} (h : M.run (k + 1) s = .next t) :
    ∃ u, M.step s = .next u ∧ M.run k u = .next t := by
  rw [Host.Core.run] at h
  split at h
  · exact ⟨_, ‹_›, h⟩
  · cases h
  · cases h

/-- A run of lines without a read returns no value. -/
theorem run_replies (ops : List HostOp) : ∀ {s : State}, s.pending = hostInputs agent (ops ++ rest) →
    (coreFor cfg).run ops.length s = .next t → HostOp.rdstat ∉ ops → HostOp.rdres ∉ ops → t.replies = s.replies := by
  induction ops with
  | nil => intro s _ h _ _; cases h; rfl
  | cons op ops ih =>
    intro s hp h hstat hres
    simp only [List.mem_cons, not_or] at hstat hres
    obtain ⟨hstat, hstats⟩ := hstat
    obtain ⟨hres, hress⟩ := hres
    obtain ⟨u, hu, hrun⟩ := run_succ_next (coreFor cfg) h
    obtain ⟨hpending, hreplies⟩ := stepFor_hostOp_keeps hp hu (Ne.symm hstat) (Ne.symm hres)
    exact (ih hpending hrun hstats hress).trans hreplies
end Replies

/-- R61, R108 under every configuration: INIT starts the empty message, the APPENDS lines deliver M and read nothing,
FINALIZE delivers its Hash64 and the RESULT read returns it. -/
theorem coreFor_run_hashOps (cfg : Config) {agent : Nat} (M : List Byte) {s : State}
    (hp : s.pending = hostInputs agent (hashOps M)) (ho : s.owner = none ∨ s.owner = some agent) :
    ∃ t : State, (coreFor cfg).run (hashOps M).length s = .next t ∧ t.result = referenceHash64 cfg M ∧ t.done = true ∧
      t.err = false ∧ t.replies = s.replies ++ [.word64 (referenceHash64 cfg M)] := by
  have hinit := stepFor_init (cfg := cfg) hp ho
  have hfresh := inMessage_nil_of_fresh (cfg := cfg) (agent := agent) (rest := appends M ++ [.finalize, .rdres]) (s := s)
  obtain ⟨t, hrun, hend, hquiet⟩ := InMessage.run (appends M) hfresh fun _ hop => messageOp_of_mem_appends hop
  rw [deliveredBytes_appends, List.nil_append] at hend
  obtain ⟨herr, -⟩ := hquiet fun w hw => by simpa using mem_appends hw
  have hreplies : t.replies = s.replies :=
    run_replies (appends M) (s := freshState (afterIssue agent (appends M ++ [.finalize, .rdres]) s)) rfl (hrun 0)
      (fun h => by simpa using mem_appends h) fun h => by simpa using mem_appends h
  have hlength : (hashOps M).length = (appends M).length + 2 + 1 := by simp [hashOps]
  have htotal := ((coreFor_run_succ hinit ((appends M).length + 2)).trans (hrun 2)).trans hend.run_finalize_rdres
  rw [hlength]
  exact ⟨_, htotal, rfl, rfl, herr, congrArg (· ++ _) hreplies⟩

/-- The machine's runs are those of the default configuration. -/
theorem core_run_eq_coreFor_run (k : Nat) (s : State) : core.run k s = (coreFor activeConfig).run k s := by
  delta core coreFor
  rw [step_eq_stepFor]

/-- Settles O37: the machine is that of the default configuration. -/
theorem hashProgramComputesHash64 : Obligations.HashProgramComputesHash64 := by
  intro s agent M howner
  obtain ⟨t, hrun, hrest⟩ :=
    coreFor_run_hashOps activeConfig M (s := { s with pending := hostInputs agent (hashOps M) }) rfl howner
  exact ⟨t, (core_run_eq_coreFor_run _ _).trans hrun, hrest⟩

end Sys2Proof.Machine

/-! ## The primitives' corner cases (40_primitives.md R67, R68, R72, R73) -/

namespace Sys2Proof.Machine

/-- R67: the guard for k = 0 agrees with the rotation, since a shift by 64 leaves nothing. -/
theorem rotr_eq_rotateRight (x : Word) {k : Nat} (hk : k < 64) : rotr x k = x.rotateRight k := by
  rw [rotr, BitVec.rotateRight_def, Nat.mod_eq_of_lt hk]
  split
  case isTrue hzero => simp [hzero]
  case isFalse => rfl

/-- R68: below 2^47 the shifted copy is 0. -/
theorem shiftMix_of_lt {v : Word} (hv : v.toNat < 2 ^ 47) : shiftMix v = v := by
  have hshift : v >>> 47 = 0#64 := BitVec.eq_of_toNat_eq (Nat.shiftRight_eq_zero _ _ hv)
  rw [shiftMix, hshift, BitVec.xor_zero]

@[simp] theorem combine16_zero_zero (mul : Word) : combine16 0 0 mul = 0 := by simp [combine16]

@[simp] theorem combine16_mul_zero (u v : Word) : combine16 u v 0 = 0 := by simp [combine16]

theorem weakHash_fst (p q r s a b : Word) : (weakHash p q r s a b).1 = a + p + q + r + s := rfl

/-- Settles O43: one corner of each primitive. -/
theorem primitiveCornerCases : Obligations.PrimitiveCornerCases :=
  ⟨fun x _ hk => rotr_eq_rotateRight x hk, fun _ hv => shiftMix_of_lt hv,
    fun u v mul => ⟨combine16_zero_zero mul, combine16_mul_zero u v⟩, weakHash_fst⟩

end Sys2Proof.Machine

/-! ## The block mixer's corner case (41_block_mixer.md R77) -/

namespace Sys2Proof.Machine

@[simp] theorem rotr_zero (k : Nat) : rotr 0#64 k = 0#64 := by simp [rotr]

@[simp] theorem weakHash_zero : weakHash 0#64 0#64 0#64 0#64 0#64 0#64 = (0#64, 0#64) := by simp [weakHash]

theorem fetchLE_replicate_zero (len off n : Nat) : fetchLE (List.replicate len 0#8) off n = 0#64 := by
  induction n with
  | zero => rfl
  | succ n ih =>
    have hbyte : byteAt (List.replicate len 0#8) (off + n) = 0#8 := byteAt_replicate_zero len (off + n)
    simp [fetchLE, ih, hbyte, zext8]

@[simp] theorem blockWord_replicate_zero (len k : Nat) : blockWord (List.replicate len 0#8) k = 0#64 :=
  fetchLE_replicate_zero len (8 * k) 8

/-- R77, R95: with zero words to xor and to add, the shared round keeps the all-zero state under any multiplier, which
multiplies only zeros. -/
theorem mixRound_zero (mul : Word) (len : Nat) :
    mixRound mul 0 0 Rolling.zero (List.replicate len 0) = Rolling.zero := by
  simp [mixRound, Rolling.zero]

/-- Settles O44: the words xor-ed and added are w1 and v0, both zero here. -/
theorem zeroBlockKeepsTheZeroState : Obligations.ZeroBlockKeepsTheZeroState :=
  fun cfg => mixRound_zero cfg.k1 64

end Sys2Proof.Machine

/-! ## The short-input bands (42_short_input.md R80 to R89) -/

namespace Sys2Proof.Machine

/-- Settles O46: a use of `shortHash_congr`, which goes band by band through what R81 lets the band read. -/
theorem shortHashReadsOnlyTheMessage : Obligations.ShortHashReadsOnlyTheMessage :=
  fun cfg _ _ _ hlen h => shortHash_congr cfg hlen h

section EmptyMessage
variable (cfg : Config) (s : State)

/-- R83: the first band's value for the empty message does not depend on the bytes. -/
theorem shortHash_len_zero (S : List Byte) : shortHash cfg S 0 = constK2 := cfg.bands.empty S

/-- R83, R104: CURSOR of the fresh state is 0, so its BUF is unread. -/
theorem arbiter_freshState : arbiter cfg (freshState s) = constK2 := by
  rw [arbiter_of_unmixed (freshState_hasMixed s)]
  exact shortHash_len_zero cfg _

/-- R101, R103: right after INIT, FINALIZE is on the short path. -/
theorem execFor_finalize_freshState :
    execFor cfg .finalize (freshState s) = .next (deliverResult constK2 (freshState s)) := by
  rw [execFor_finalize (freshState_done s) (by simp) (by simp), arbiter_freshState]

/-- R28, R103: DONE is the only STATUS field set by INIT then FINALIZE. -/
theorem statusWord_deliverResult_freshState (v : Word) : statusWord (deliverResult v (freshState s)) = 1 := by
  simp [statusWord, flagWord]
end EmptyMessage

/-- Settles O38: K2 is the value of the empty message under every configuration, the default one among them. -/
theorem emptyMessageGivesK2 : Obligations.EmptyMessageGivesK2 := by
  refine ⟨shortHash_len_zero activeConfig, fun s => ⟨freshState s, deliverResult constK2 (freshState s), rfl, ?_, rfl,
    statusWord_deliverResult_freshState s constK2⟩⟩
  rw [exec_eq_execFor, execFor_finalize_freshState]

section Bands
variable {S : List Byte} {len : Nat}

section Selection
variable {cfg : Config}

theorem shortHash_of_le_16 (h : len ≤ 16) : shortHash cfg S len = cfg.len0to16 S len := if_pos h

theorem shortHash_of_17_to_32 (h17 : 17 ≤ len) (h32 : len ≤ 32) : shortHash cfg S len = cfg.len17to32 S len := by
  rw [shortHash, if_neg (by omega), if_pos h32]

theorem shortHash_of_33_le (h33 : 33 ≤ len) : shortHash cfg S len = cfg.len33to64 S len := by
  rw [shortHash, if_neg (by omega), if_neg (by omega)]
end Selection

section FirstBand
variable {k0 : Word}

theorem len0to16_of_1_to_3 (h1 : 1 ≤ len) (h3 : len ≤ 3) : len0to16 k0 S len = len1to3 k0 S len := by
  rw [len0to16, if_neg (by omega), if_neg (by omega), if_pos (by omega)]

theorem len0to16_of_4_to_7 (h4 : 4 ≤ len) (h7 : len ≤ 7) : len0to16 k0 S len = len4to7 S len := by
  rw [len0to16, if_neg (by omega), if_pos h4]

theorem len0to16_of_8_le (h8 : 8 ≤ len) : len0to16 k0 S len = len8to16 S len := if_pos h8

/-- R84: the middle byte's index, a shift in the code, is the half of the length. -/
theorem len1to3_eq : len1to3 k0 S len =
    shiftMix (((fetch8 S 0 + (fetch8 S (len / 2) <<< 8)) * constK2) ^^^
      ((lenWord len + (fetch8 S (len - 1) <<< 2)) * k0)) * constK2 := by
  rw [len1to3, Nat.shiftRight_one]
end FirstBand
end Bands

/-- Settles O47: each length selects its band, and the band's definition is the formula: R88's first stage is, by
definition, `len17to32` with K2 for K1. -/
theorem defaultBandsHaveTheDocumentStructure : Obligations.DefaultBandsHaveTheDocumentStructure := by
  refine ⟨fun cfg => cfg.bands, fun k0 k1 h0 h1 S len => ⟨(standardConfig k0 k1 h0 h1).bands, ?_, fun hlo hhi => ?_,
    fun hlo hhi => ?_, fun hlo hhi => ?_, fun hlo hhi => ?_, fun hlo _ => ?_⟩⟩
  · rintro rfl
    exact shortHash_len_zero _ S
  · exact (shortHash_of_le_16 (by omega)).trans ((len0to16_of_1_to_3 hlo hhi).trans len1to3_eq)
  · exact (shortHash_of_le_16 (by omega)).trans (len0to16_of_4_to_7 hlo hhi)
  · exact (shortHash_of_le_16 hhi).trans (len0to16_of_8_le hlo)
  · exact shortHash_of_17_to_32 hlo hhi
  · exact shortHash_of_33_le hlo

end Sys2Proof.Machine

/-! ## The finalizer's conditions and its trailing bytes (43_finalizer.md R90, R91) -/

namespace Sys2Proof.Machine

/-- R107: once a block has been mixed, CURSOR is the length of the trailing block, counted in 1..64. -/
theorem MixedMessage.cursor_eq {cfg : Config} {M : List Byte} {s : State} {m r : Nat} (h : MixedMessage cfg M s m r) :
    s.cursor.toNat = (M.length - 1) % 64 + 1 := by
  obtain ⟨-, hr, hlen, hcursor, -, -⟩ := h
  omega

/-- Settles O31: with the mixes and the trailing length named, BUF's rotation and the value of CURSOR are known. -/
theorem rotationGivesTheLast64Bytes : Obligations.RotationGivesTheLast64Bytes := by
  intro cfg M s h hm
  obtain ⟨m, r, hmsg⟩ := (holdsMessage_iff_of_mixed hm).1 h
  exact ⟨hmsg.rotateBuffer_eq, h.one_le_cursor hm, h.cursor_le, hmsg.cursor_eq⟩

/-- Settles O14: FINALIZE outside its conditions raises INTERNAL; the cause's code is 4 and FINALIZE's word is 3. -/
theorem finalizerPreconditionRaisesInternal : Obligations.FinalizerPreconditionRaisesInternal :=
  fun _ hd hm hc => exec_finalize_internal hd hm hc

end Sys2Proof.Machine

/-! ## The append step as a whole (44_streaming.md R99, R100, R102, R109) -/

namespace Sys2Proof.Machine

section FullBuffer
variable {cfg : Config} {C : List Byte} {s : State}

/-- R99, R100: what the mix of a filled buffer leaves, InitState before it where it is the first. -/
theorem mixBuffer_initIfFirst (cfg : Config) (s : State) :
    mixBuffer cfg (initIfFirst cfg s) = { s with
      roll := blockMix cfg (if s.hasMixed then s.roll else initRolling cfg (fetch64 s.buf.toList 0)) s.buf.toList
      hasMixed := true } := by
  cases hm : s.hasMixed with
  | false => simp [mixBuffer, initIfFirst, hm, memRead, fetch64]
  | true => rw [initIfFirst_of_mixed cfg s hm, mixBuffer, if_pos rfl, hm]

/-- R100: a nonempty chunk first has the full buffer mixed; all of it is still to be copied. -/
theorem appendChunk_of_full (hc : s.cursor.toNat = 64) (h1 : 1 ≤ C.length) :
    appendChunk cfg C s = appendTail cfg C.length C (mixBuffer cfg (initIfFirst cfg s)) := by
  rw [appendChunk_spills cfg C s (by omega), hc, Nat.sub_self, List.take_zero, List.drop_zero, storeBytes]

/-- R99: after a mix, with nothing buffered, the append step is its loop and last copy. -/
theorem appendChunk_of_empty (hc : s.cursor.toNat = 0) (hm : s.hasMixed = true) :
    appendChunk cfg C s = appendTail cfg C.length C s := by
  by_cases hfits : C.length ≤ 64
  · rw [appendChunk_fits cfg C s (by omega), appendTail_of_le _ hfits, hc, Nat.zero_add, copyRest]
  · obtain ⟨k, hk⟩ : ∃ k, C.length = k + 1 := ⟨C.length - 1, by omega⟩
    rw [appendChunk_spills cfg C s (by omega), hc, initIfFirst_of_mixed cfg _ (by exact hm),
      appendTail_fuel cfg C.length k _ _ (by simp; omega) (by simp; omega), hk, appendTail, if_pos (by omega)]
end FullBuffer

/-- Settles O10: at CURSOR = 64 the append step is R99's loop after the mix, and the loop does not look at CURSOR; a chunk
that brings CURSOR to 64 is on R99's first branch. -/
theorem fullBufferMixesBeforeStoring : Obligations.FullBufferMixesBeforeStoring := by
  refine ⟨fun cfg s C hc h1 => ?_, fun cfg s C hc h1 h64 => ?_, fun cfg s C hc => ?_⟩
  · rw [appendChunk_of_full (by simp [hc]) h1, mixBuffer_initIfFirst, appendChunk_of_empty rfl rfl]
    exact (appendTail_cursor cfg _ C { s with roll := _, hasMixed := true } 0).symm
  · rw [appendChunk_of_full (by simp [hc]) h1, mixBuffer_initIfFirst, appendTail_of_le _ h64, copyRest]
  · rw [appendChunk_fits cfg C s (by omega), hc]
    rfl

/-- Settles O8: R99's first branch, with the chunk's bytes read from DATA. -/
theorem appendWithinTheBuffer : Obligations.AppendWithinTheBuffer := by
  intro s n hn hd hfits
  refine ⟨storeBytes s.buf s.cursor.toNat (dataChunk n.toNat s.data), ?_, fun j hj => ?_⟩
  · rw [exec_append hn hd (by omega), appendChunk_fits _ _ _ (by simp; omega), dataChunk_length]
  · rw [byteAt_storeBytes _ _ _ _ (by simpa using hfits) hj, dataChunk_length]
    split
    · exact byteAt_dataChunk _ _ _ (by omega)
    · rfl

section OneSpill
variable {cfg : Config} {C : List Byte} {s : State}

/-- R99: the 64-byte block that a chunk which does not fit completes. -/
def completedBlock (C : List Byte) (s : State) : List Byte :=
  s.buf.toList.take s.cursor.toNat ++ C.take (64 - s.cursor.toNat)

/-- R99's second branch for a chunk that completes one block alone. -/
theorem appendChunk_spills_once (hc : s.cursor.toNat ≤ 64) (hspills : 64 < s.cursor.toNat + C.length)
    (honce : s.cursor.toNat + C.length ≤ 128) :
    appendChunk cfg C s = { s with
      roll := blockMix cfg (if s.hasMixed then s.roll else initRolling cfg (fetch64 (completedBlock C s) 0))
        (completedBlock C s)
      buf := storeBytes (storeBytes s.buf s.cursor.toNat (C.take (64 - s.cursor.toNat))) 0 (C.drop (64 - s.cursor.toNat))
      cursor := BitVec.ofNat 7 (s.cursor.toNat + C.length - 64)
      hasMixed := true } := by
  have hblock := storeBytes_toEnd s.buf s.cursor.toNat (C.take (64 - s.cursor.toNat)) (by simp; omega)
  have hrest : C.length - (64 - s.cursor.toNat) = s.cursor.toNat + C.length - 64 := by omega
  rw [appendChunk_spills cfg C s (by omega), appendTail_of_le _ (by simp; omega), mixBuffer_initIfFirst, copyRest,
    List.length_drop, hrest, hblock]
  rfl

/-- BUF after such a chunk: the bytes left over, and behind them the block that was mixed. -/
theorem byteAt_spilled_buf (hc : s.cursor.toNat ≤ 64) (hspills : 64 < s.cursor.toNat + C.length)
    (honce : s.cursor.toNat + C.length ≤ 128) {j : Nat} (hj : j < 64) :
    byteAt (appendChunk cfg C s).buf.toList j =
      if j < s.cursor.toNat + C.length - 64 then byteAt C (64 - s.cursor.toNat + j) else byteAt (completedBlock C s) j := by
  have hrest : (C.drop (64 - s.cursor.toNat)).length = s.cursor.toNat + C.length - 64 := by simp; omega
  rw [appendChunk_spills_once hc hspills honce, byteAt_storeBytes _ _ _ _ (by omega) hj, hrest, Nat.zero_add,
    Nat.sub_zero, byteAt_drop, storeBytes_toEnd _ _ _ (by simp; omega), ← completedBlock]
  simp only [Nat.zero_le, true_and]
end OneSpill

/-- Settles O9: R99's second branch; at most 8 bytes complete at most one block. -/
theorem appendAcrossTheBlock : Obligations.AppendAcrossTheBlock := by
  intro s n hn hd hc hspills c C B r0
  have hlength : C.length = n.toNat := dataChunk_length _ _
  have hspills : 64 < s.cursor.toNat + C.length := by rwa [hlength]
  have honce : s.cursor.toNat + C.length ≤ 128 := by omega
  refine ⟨(appendChunk activeConfig C s).buf, ?_, fun j hj => ?_⟩
  · rw [exec_append hn hd hc, appendChunk_spills_once hc hspills honce, hlength]
    rfl
  · rw [byteAt_spilled_buf hc hspills honce hj, hlength]
    split
    · exact byteAt_dataChunk _ _ _ (by omega)
    · rfl

section Frame
variable {cfg : Config} {C : List Byte} {s : State}

/-- R99: the bytes of BUF outside those a chunk of at most one block is stored to. -/
theorem byteAt_appendChunk_buf_unstored (hc : s.cursor.toNat ≤ 64) (hC : C.length ≤ 64) {j : Nat} (hj : j < 64)
    (hstored : ¬(s.cursor.toNat ≤ j ∧ j < s.cursor.toNat + C.length)) (hrest : ¬j < s.cursor.toNat + C.length - 64) :
    byteAt (appendChunk cfg C s).buf.toList j = byteAt s.buf.toList j := by
  by_cases hfits : s.cursor.toNat + C.length ≤ 64
  · rw [appendChunk_fits cfg C s (by omega), byteAt_storeBytes _ _ _ _ hfits hj, if_neg hstored]
  · rw [byteAt_spilled_buf hc (by omega) (by omega) hj, if_neg hrest, completedBlock, byteAt_append,
      if_pos (by simp; omega), byteAt_take _ _ _ (by omega)]
end Frame

/-- R58, R112: an APPEND that is illegal or comes after FINALIZE is one raise. -/
theorem exec_append_of_raises {s : State} {n : BitVec 4} (h : s.done = true ∨ 8 < n.toNat) :
    ∃ c, exec (.append n) s = .next (raiseError c (encode (.append n)) s) := by
  by_cases hn : 8 < n.toNat
  · exact ⟨_, exec_append_illegal hn⟩
  · exact ⟨_, exec_append_done (by omega) (h.resolve_right hn)⟩

/-- Settles O12: a raise keeps all but ERR, CAUSE and the log; the append step keeps what `AppendKeeps` says, and on
R99's first branch the rolling state too. -/
theorem appendFrame : Obligations.AppendFrame := by
  intro s t n h c raises
  by_cases hr : raises
  · obtain ⟨cause, hraise⟩ := exec_append_of_raises hr
    cases hraise.symm.trans h
    exact ⟨rfl, rfl, rfl, rfl, rfl, rfl, fun hno => absurd hr hno, fun _ => ⟨rfl, rfl⟩, fun _ => ⟨rfl, rfl⟩,
      fun _ _ _ _ => rfl⟩
  · cases exec_cases h with
    | appendIllegal _ hn => exact absurd (.inr hn) hr
    | appendDone _ _ hd => exact absurd (.inl hd) hr
    | append _ hn hd hc =>
      refine ⟨by simp, by simp, by simp, by simp, by simp, by simp, fun _ => by simp, fun hfits => ?_,
        fun hraises => absurd hraises hr, fun j hj hstored hrest => ?_⟩
      · have hfits := hfits.resolve_left hr
        rw [appendChunk_fits _ _ _ (by simp; omega)]
        exact ⟨rfl, rfl⟩
      · exact byteAt_appendChunk_buf_unstored hc (by simp; omega) hj (by simpa using hstored) (by simpa using hrest)

/-- Settles O11: the append step of no bytes. -/
theorem emptyAppendChangesNothing : Obligations.EmptyAppendChangesNothing :=
  fun _ hd hc => exec_append_zero hd hc

/-- Settles O29: byte by byte, a byte into a buffer with room or into a full one. -/
theorem appendExtendsTheMessage : Obligations.AppendExtendsTheMessage :=
  fun _ _ C _ h => h.append C

/-- Settles O34: each append step is the fold of its single bytes, and CURSOR stays in its range in between. -/
theorem chunkBoundariesDoNotMatter : Obligations.ChunkBoundariesDoNotMatter := by
  intro cfg C D s hc
  obtain ⟨hrange, -⟩ := appendChunk_cursor_range cfg C s hc
  rw [appendChunk_eq_foldl cfg D _ hrange, appendChunk_eq_foldl cfg C s hc, appendChunk_eq_foldl cfg (C ++ D) s hc,
    List.foldl_append]

/-- Settles O30: `step` is the step under the default configuration. -/
theorem stepKeepsTheMessageInvariant : Obligations.StepKeepsTheMessageInvariant := by
  intro M s t h hstep
  rw [step_eq_stepFor] at hstep
  exact h.after_step hstep

end Sys2Proof.Machine

/-! ## INIT, FINALIZE and Hash64 of the chunks (44_streaming.md R101, R103, R108, R109) -/

namespace Sys2Proof.Machine

/-- R106: INIT starts the empty message. -/
theorem holdsMessage_nil_freshState (cfg : Config) (s : State) : HoldsMessage cfg [] (freshState s) :=
  holdsMessage_nil_of_fresh rfl rfl rfl

/-- R28, R101: every field of STATUS is 0 after INIT. -/
theorem statusWord_freshState (s : State) : statusWord (freshState s) = 0 := by simp [statusWord, flagWord]

/-- Settles O7: INIT is the fresh state; a command that clears DONE is INIT, by what each does to DONE. -/
theorem initGivesFreshState : Obligations.InitGivesFreshState := by
  refine ⟨fun s => rfl, fun s t h => ?_, fun i s t hd h ht => ?_⟩
  · cases h
    exact ⟨rfl, holdsMessage_nil_freshState activeConfig s, statusWord_freshState s⟩
  · rw [exec_eq_execFor] at h
    rcases execFor_done_result h with ⟨hinit, -⟩ | ⟨-, hd', -⟩ | ⟨hdone, -⟩
    · exact hinit
    · simp [hd] at hd'
    · simp [hdone, hd] at ht

/-- Settles O13: the raise, and the delivery of the arbiter's value on each of its two paths; the empty message is on the
short one. -/
theorem finalizeDeliversTheArbiterValue : Obligations.FinalizeDeliversTheArbiterValue := by
  have hshort : ∀ s : State, s.done = false → s.hasMixed = false → s.cursor.toNat ≤ 64 →
      exec .finalize s = .next (deliverResult (shortHash activeConfig s.buf.toList s.cursor.toNat) s) := by
    intro s hd hm hc
    rw [exec_finalize hd hc (by simp [hm]), arbiter_of_unmixed hm]
  refine ⟨fun s hd => exec_finalize_done hd, hshort, fun s hd hm h1 hc => ?_, fun s hd hm hc => ?_⟩
  · rw [exec_finalize hd hc (fun _ => h1), arbiter_of_mixed hm]
    rfl
  · have hc : s.cursor.toNat = 0 := by simp [hc]
    rw [hshort s hd hm (by omega), hc, shortHash_len_zero]
    rfl

/-- Settles O32: before the first mix by the short hash, after it by the finalizer. -/
theorem arbiterValueIsHash64 : Obligations.ArbiterValueIsHash64 :=
  fun _ _ _ h => h.arbiter_eq

/-- Settles O33: a state that holds a message meets FINALIZE's conditions, and the arbiter's value is its Hash64. -/
theorem finalizeGivesHash64 : Obligations.FinalizeGivesHash64 := by
  intro M s h hd
  rw [exec_eq_execFor, h.finalize hd]
  rfl

section Chunks
variable {cfg : Config}

/-- R109: chunks appended in order extend the message by their concatenation. -/
theorem HoldsMessage.foldl_appendChunk (chunks : List (List Byte)) : ∀ {M : List Byte} {s : State}, HoldsMessage cfg M s →
    HoldsMessage cfg (M ++ chunks.flatten) (chunks.foldl (fun u C => appendChunk cfg C u) s) := by
  induction chunks with
  | nil => intro M s h; simpa using h
  | cons C chunks ih => intro M s h; simpa using ih (h.append C)

/-- R102: an APPEND that completes is performed, and then those after it. -/
theorem performAppends_cons {run : Meaning} {n : BitVec 4} {v : Word} {s t : State}
    (h : run (.append n) { s with data := v } = .next t) (deliveries : List (BitVec 4 × Word)) :
    performAppends run ((n, v) :: deliveries) s = performAppends run deliveries t := by
  rw [performAppends, h]

/-- R102, R109: legal APPENDs in a state that holds an unfinished message complete, and extend it by the chunks they take
from DATA. -/
theorem HoldsMessage.run_appends (deliveries : List (BitVec 4 × Word)) : ∀ {M : List Byte} {s : State},
    HoldsMessage cfg M s → s.done = false → (∀ d ∈ deliveries, d.1.toNat ≤ 8) →
    ∃ t, performAppends (execFor cfg) deliveries s = .next t ∧ t.done = false ∧
      HoldsMessage cfg (M ++ deliveries.flatMap fun d => dataChunk d.1.toNat d.2) t := by
  induction deliveries with
  | nil => intro M s h hd _; exact ⟨s, rfl, hd, by simpa using h⟩
  | cons d deliveries ih =>
    intro M s h hd hlegal
    obtain ⟨n, v⟩ := d
    have hdata : HoldsMessage cfg M { s with data := v } := h.congr rfl rfl rfl rfl
    have hexec : execFor cfg (.append n) { s with data := v } = .next (appendChunk cfg (dataChunk n.toNat v) _) :=
      execFor_append (hlegal (n, v) (by simp)) hd hdata.cursor_le
    obtain ⟨t, hrun, hdone, hholds⟩ := ih (hdata.append (dataChunk n.toNat v)) (by simpa using hd)
      fun d hmem => hlegal d (by simp [hmem])
    exact ⟨t, (performAppends_cons hexec deliveries).trans hrun, hdone, by simpa using hholds⟩
end Chunks

/-- Settles O35: the chunks extend the empty message of the fresh state, and a state that holds a message delivers its
Hash64. -/
theorem legalAppendsThenFinalizeGiveHash64 : Obligations.LegalAppendsThenFinalizeGiveHash64 := by
  refine ⟨fun s chunks => ?_, fun s t deliveries hinit hlegal => ?_⟩
  · exact ((holdsMessage_nil_freshState activeConfig s).foldl_appendChunk chunks).arbiter_eq
  · cases hinit
    obtain ⟨u, hrun, hdone, hholds⟩ :=
      (holdsMessage_nil_freshState activeConfig s).run_appends deliveries rfl hlegal
    rw [exec_eq_execFor]
    exact ⟨u, _, hrun, hholds.finalize hdone, rfl⟩

/-- Settles O36: the machine is that of the default configuration, and O59 is about every configuration's. -/
theorem hostSequenceComputesHash64 : Obligations.HostSequenceComputesHash64 := by
  intro s agent ops hops howner program hash
  rw [core_run_eq_coreFor_run]
  exact everyConfigurationComputesHash64 activeConfig s agent ops hops howner

end Sys2Proof.Machine

/-! ## Errors and the fault log (60_exceptions.md R112 to R118) -/

namespace Sys2Proof.Machine

section FaultLog
variable {cfg : Config} {i : Instr} {w : CmdWord} {s t : State}

/-- R114, R117: a command that completes leaves the fault log, or is one raise with its own word as the information. -/
theorem execFor_log_cases (h : execFor cfg i s = .next t) :
    t.faultLog = s.faultLog ∨ ∃ c, t = raiseError c (encode i) s := by
  cases execFor_cases h with
  | init | finalize => exact .inl rfl
  | append => exact .inl (appendChunk_faultLog cfg _ s)
  | appendIllegal | appendDone | finalizeDone | finalizeInternal => exact .inr ⟨_, rfl⟩

/-- R58, R114: a CMD write of any word leaves the fault log, or is one raise with that word as the information. -/
theorem command_log_cases (h : command exec w s = .next t) :
    t.faultLog = s.faultLog ∨ ∃ c, t = raiseError c w s := by
  cases hw : decode w with
  | instr i =>
    obtain ⟨-, rfl⟩ := wellFormed_and_encode_of_decode hw
    rw [command_of_instr hw, exec_eq_execFor] at h
    exact execFor_log_cases h
  | illegal why =>
    cases (perform_illegal hw s).symm.trans h
    exact .inr ⟨_, rfl⟩

/-- R112: with DONE = 0 no command raises a misuse after FINALIZE; a log that gains an entry gains one of another cause. -/
theorem execFor_misuse_unlogged (hd : s.done = false) (h : execFor cfg i s = .next t) {c : Cause}
    (hc : c = .appendAfterFinalize ∨ c = .finalizeAfterFinalize) (info : CmdWord) :
    t.faultLog ≠ s.faultLog ++ [⟨c, info⟩] := by
  cases execFor_cases h with
  | init | append | finalize => simp
  | appendDone _ _ hd' | finalizeDone hd' => simp [hd] at hd'
  | appendIllegal | finalizeInternal => rcases hc with rfl | rfl <;> simp
end FaultLog

/-- Settles O15: the raises of APPEND and FINALIZE after FINALIZE, and the commands with DONE = 0 by what they log. -/
theorem misuseAfterFinalizeRaises : Obligations.MisuseAfterFinalizeRaises := by
  refine fun s => ⟨fun hd => ⟨fun n hn => exec_append_done hn hd, exec_finalize_done hd⟩, fun hd i t info h => ?_⟩
  rw [exec_eq_execFor] at h
  exact ⟨execFor_misuse_unlogged hd h (.inl rfl) info, execFor_misuse_unlogged hd h (.inr rfl) info⟩

/-- Settles O16: a CMD write that changes the fault log is one raise, and a raise writes ERR, CAUSE and the log alone. -/
theorem errorsArePrecise : Obligations.ErrorsArePrecise := by
  intro w s t h hlog
  obtain ⟨c, ht⟩ := (command_log_cases h).resolve_left hlog
  exact ⟨c, ht⟩

/-- Settles O17: an illegal word never reaches a command's check of DONE; a legal one is its command's own word, and so the
information of what that command raises. -/
theorem decodeComesBeforeTheDoneCheck : Obligations.DecodeComesBeforeTheDoneCheck := by
  refine fun w s => ⟨fun why hw => perform_illegal hw s, fun n hw hd => ?_, fun hw hd => ?_, fun t h => ?_⟩
  · obtain ⟨hwf, rfl⟩ := wellFormed_and_encode_of_decode hw
    exact (command_of_instr hw).trans (exec_append_done (of_decide_eq_true hwf) hd)
  · obtain ⟨-, rfl⟩ := wellFormed_and_encode_of_decode hw
    exact (command_of_instr hw).trans (exec_finalize_done hd)
  · rcases command_log_cases h with hlog | ⟨c, rfl⟩
    · exact .inl hlog
    · exact .inr ⟨c, rfl⟩

/-- Settles O18: the next input is a command, which adds at most its raise, or an illegal word, which adds one, or it
leaves the log; reset leaves it too (log 9). -/
theorem faultLogOnlyGrows : Obligations.FaultLogOnlyGrows := by
  intro s t hstep
  cases step_cases hstep with
  | idle hp ht | reset rest hp hr hn ht | dataWrite rest agent v hn hr hw ho ht
  | quiet rest agent replies hn hr hw ho ht => exact .inl (by simp [ht])
  | illegal rest agent w hn hr hw ho ht => exact .inr ⟨_, by rw [ht, raiseError_faultLog]⟩
  | exec rest agent i hn hr hw ho ht =>
    rw [exec_eq_execFor] at ht
    rcases execFor_log_cases ht with hlog | ⟨c, rfl⟩
    · exact .inl hlog
    · exact .inr ⟨_, rfl⟩

section Completion
variable {s : State}

/-- R116: under the invariant every command completes, the misuses by raising. -/
theorem StateInv.exec_completes (h : StateInv s) (i : Instr) : ∃ t, exec i s = .next t := by
  cases i with
  | init => exact ⟨_, rfl⟩
  | append n =>
    by_cases hraises : s.done = true ∨ 8 < n.toNat
    · obtain ⟨c, hc⟩ := exec_append_of_raises hraises
      exact ⟨_, hc⟩
    · obtain ⟨hd, hn⟩ := not_or.1 hraises
      exact ⟨_, exec_append (by omega) (by simpa using hd) h.cursorRange⟩
  | finalize =>
    cases hd : s.done with
    | true => exact ⟨_, exec_finalize_done hd⟩
    | false => exact ⟨_, exec_finalize hd h.cursorRange h.trailing⟩

/-- R116, R118: under the invariant a CMD write of any word completes, in a state that meets the invariant again. -/
theorem StateInv.command_completes (h : StateInv s) (w : CmdWord) : ∃ t, command exec w s = .next t ∧ StateInv t := by
  cases hw : decode w with
  | instr i =>
    obtain ⟨t, ht⟩ := h.exec_completes i
    exact ⟨t, (command_of_instr hw).trans ht, h.after_command (by rwa [exec_eq_execFor] at ht)⟩
  | illegal why => exact ⟨_, perform_illegal hw s, h.raise (by decide) w⟩
end Completion

/-- Settles O28: the state after the CMD write meets the invariant, which has no INTERNAL in the log. -/
theorem everyCommandCompletes : Obligations.EveryCommandCompletes := by
  intro w s h
  obtain ⟨t, ht, hinv⟩ := h.command_completes w
  exact ⟨t, ht, fun info hlog => hinv.noInternal ⟨.internal, info⟩ (by simp [hlog]) rfl⟩

end Sys2Proof.Machine

/-! ## A system of instances (60_exceptions.md R126, 20_memory.md R45; log 12) -/

namespace Sys2Proof.Machine

/-- R45, R126: an access that completes was taken by one instance whose window holds the address, as its own access at the
offset, and the other instances are as they were. -/
theorem routeAccess_next {run : Meaning} {agent : Nat} {a : Access} {slots : List Placed} :
    ∀ {slots' : List Placed}, routeAccess run agent a slots = .next slots' →
      ∃ (k : Nat) (p : Placed) (b : State), slots[k]? = some p ∧ inWindow p.base (accessOff a) = true ∧
        performAccess run agent (rebase p.base a) p.block = .next b ∧ slots' = slots.set k { p with block := b } := by
  induction slots with
  | nil => intro slots' h; cases h
  | cons p slots ih =>
    intro slots' h
    rw [routeAccess] at h
    split at h
    next hwindow =>
      split at h
      next b hb => cases h; exact ⟨0, p, b, rfl, hwindow, hb, rfl⟩
      all_goals cases h
    next =>
      split at h
      next rest hrest =>
        cases h
        obtain ⟨k, q, b, hk, hwindow, hb, rfl⟩ := ih hrest
        exact ⟨k + 1, q, b, hk, hwindow, hb, rfl⟩
      all_goals cases h

/-- The system's access is the routed one. -/
theorem systemAccess_next {run : Meaning} {agent : Nat} {a : Access} {sys sys' : System}
    (h : systemAccess run agent a sys = .next sys') : routeAccess run agent a sys.slots = .next sys'.slots := by
  rw [systemAccess] at h
  split at h
  next hroute => cases h; exact hroute
  all_goals cases h

/-- Settles O54: the access by the window it is routed to, the reset slot by slot. -/
theorem instancesShareNothing : Obligations.InstancesShareNothing :=
  ⟨fun _ _ _ _ h => routeAccess_next (systemAccess_next h), fun _ _ => List.getElem?_map⟩

end Sys2Proof.Machine

/-! ## Reset and INIT (70_reset_and_hazards.md R129, R130) -/

namespace Sys2Proof.Machine

/-- R101: of the cases of a command, INIT has one, which leads to the fresh state. -/
theorem eq_freshState_of_exec_init {s t : State} (h : exec .init s = .next t) : t = freshState s := by
  cases exec_cases h
  rfl

/-- Settles O24: reset as an input is by definition the fresh state with DATA at 0, and INIT gives the fresh state. -/
theorem resetIsInitAndClearsData : Obligations.ResetIsInitAndClearsData := by
  intro s t h
  rw [eq_freshState_of_exec_init h, resetState]

/-- R130: the reset state has the values INIT writes, so INIT leaves it as it is. -/
theorem freshState_reset : freshState State.reset = State.reset := rfl

/-- R101, R130: the fresh state's buffer is all 0. -/
theorem byteAt_freshState_buf (s : State) (j : Nat) : byteAt (freshState s).buf.toList j = 0 := by
  rw [freshState_buf, Vector.toList_replicate, byteAt_replicate_zero]

/-- R130's column after INIT, and STATUS. -/
theorem freshState_table (s : State) :
    (freshState s).roll = ⟨0, 0, 0, 0, 0, 0, 0⟩ ∧ (∀ j < 64, byteAt (freshState s).buf.toList j = 0) ∧
    (freshState s).cursor = 0 ∧ (freshState s).hasMixed = false ∧ (freshState s).done = false ∧
    (freshState s).err = false ∧ (freshState s).cause = 0 ∧ (freshState s).result = 0 ∧
    (freshState s).data = s.data ∧ statusWord (freshState s) = 0 :=
  ⟨freshState_roll s, fun j _ => byteAt_freshState_buf s j, freshState_cursor s, freshState_hasMixed s,
    freshState_done s, freshState_err s, freshState_cause s, freshState_result s, freshState_data s,
    statusWord_freshState s⟩

/-- Settles O25: the reset state is its own fresh state, with DATA at 0, so both columns are the fresh state's. -/
theorem resetTable : Obligations.ResetTable := by
  refine ⟨?_, fun s t h => ?_⟩
  · have htable := freshState_table State.reset
    rwa [freshState_reset] at htable
  · rw [eq_freshState_of_exec_init h]
    exact freshState_table s

/-- Settles O26: no byte is buffered, no flag is set, every value is 0 and the fault log is empty. -/
theorem resetMeetsStateInv : Obligations.ResetMeetsStateInv where
  cursorRange := Nat.zero_le 64
  trailing := Bool.noConfusion
  rollingFresh := fun _ => rfl
  resultFresh := fun _ => rfl
  causeSet := by decide
  causeRange := Nat.zero_le 3
  errLogged := Bool.noConfusion
  noInternal := List.forall_mem_nil _

end Sys2Proof.Machine
